-- ==== Sys2Proof/Word.lean ====
section
/-! DEFINITION. The two word types of the hardware (R7): the 8-bit data byte and the 16-bit address, program counter
and stack pointer word. Their arithmetic is `BitVec`'s, modulo 2^8 and 2^16. -/
namespace Sys2Proof

/-- An 8-bit value: a slot, a memory byte, an opcode, a displacement (R7, R10). -/
abbrev Byte := BitVec 8

/-- A 16-bit value: an address, `pc`, `sp`, a register pair (R7). -/
abbrev Word := BitVec 16

end Sys2Proof
end

