-- ==== Sys2Proof/Syntax.lean ====
section
/-! DEFINITION. The instruction set as syntax: one constructor per row of spec/opcode_table.json (R96), with the
operands that stand in the bytes after the opcode (R91, R94). `Mhl` in a name is the operand `(HL)`, the memory byte
addressed by the pair HL (R93). The last constructor is the table's default row: an opcode byte with no handler (R97). -/
namespace Sys2Proof

/-- The instructions of rule R96, in the table's order, and the default row of rule R97. -/
inductive Instr where
  /-- `INC B` (R127), opcode 0x04. -/
  | incB
  /-- `INC C` (R127), opcode 0x0C. -/
  | incC
  /-- `STOP` (R150), opcode 0x10. -/
  | stop
  /-- `INC D` (R127), opcode 0x14. -/
  | incD
  /-- `JR e8` (R141), opcode 0x18. -/
  | jrE8 (e8 : Byte)
  /-- `INC E` (R127), opcode 0x1C. -/
  | incE
  /-- `JR NZ,e8` (R142), opcode 0x20. -/
  | jrNzE8 (e8 : Byte)
  /-- `INC H` (R127), opcode 0x24. -/
  | incH
  /-- `JR Z,e8` (R143), opcode 0x28. -/
  | jrZE8 (e8 : Byte)
  /-- `INC L` (R127), opcode 0x2C. -/
  | incL
  /-- `INC (HL)` (R128), opcode 0x34. -/
  | incMhl
  /-- `INC A` (R127), opcode 0x3C. -/
  | incA
  /-- `LD B,B` (R110), opcode 0x40. -/
  | ldBB
  /-- `LD B,C` (R110), opcode 0x41. -/
  | ldBC
  /-- `LD B,D` (R110), opcode 0x42. -/
  | ldBD
  /-- `LD B,E` (R110), opcode 0x43. -/
  | ldBE
  /-- `LD B,H` (R110), opcode 0x44. -/
  | ldBH
  /-- `LD B,L` (R110), opcode 0x45. -/
  | ldBL
  /-- `LD B,(HL)` (R111), opcode 0x46. -/
  | ldBMhl
  /-- `LD B,A` (R110), opcode 0x47. -/
  | ldBA
  /-- `LD C,B` (R110), opcode 0x48. -/
  | ldCB
  /-- `LD C,C` (R110), opcode 0x49. -/
  | ldCC
  /-- `LD C,D` (R110), opcode 0x4A. -/
  | ldCD
  /-- `LD C,E` (R110), opcode 0x4B. -/
  | ldCE
  /-- `LD C,H` (R110), opcode 0x4C. -/
  | ldCH
  /-- `LD C,L` (R110), opcode 0x4D. -/
  | ldCL
  /-- `LD C,(HL)` (R111), opcode 0x4E. -/
  | ldCMhl
  /-- `LD C,A` (R110), opcode 0x4F. -/
  | ldCA
  /-- `LD D,B` (R110), opcode 0x50. -/
  | ldDB
  /-- `LD D,C` (R110), opcode 0x51. -/
  | ldDC
  /-- `LD D,D` (R110), opcode 0x52. -/
  | ldDD
  /-- `LD D,E` (R110), opcode 0x53. -/
  | ldDE
  /-- `LD D,H` (R110), opcode 0x54. -/
  | ldDH
  /-- `LD D,L` (R110), opcode 0x55. -/
  | ldDL
  /-- `LD D,(HL)` (R111), opcode 0x56. -/
  | ldDMhl
  /-- `LD D,A` (R110), opcode 0x57. -/
  | ldDA
  /-- `LD E,B` (R110), opcode 0x58. -/
  | ldEB
  /-- `LD E,C` (R110), opcode 0x59. -/
  | ldEC
  /-- `LD E,D` (R110), opcode 0x5A. -/
  | ldED
  /-- `LD E,E` (R110), opcode 0x5B. -/
  | ldEE
  /-- `LD E,H` (R110), opcode 0x5C. -/
  | ldEH
  /-- `LD E,L` (R110), opcode 0x5D. -/
  | ldEL
  /-- `LD E,(HL)` (R111), opcode 0x5E. -/
  | ldEMhl
  /-- `LD E,A` (R110), opcode 0x5F. -/
  | ldEA
  /-- `LD H,B` (R110), opcode 0x60. -/
  | ldHB
  /-- `LD H,C` (R110), opcode 0x61. -/
  | ldHC
  /-- `LD H,D` (R110), opcode 0x62. -/
  | ldHD
  /-- `LD H,E` (R110), opcode 0x63. -/
  | ldHE
  /-- `LD H,H` (R110), opcode 0x64. -/
  | ldHH
  /-- `LD H,L` (R110), opcode 0x65. -/
  | ldHL
  /-- `LD H,(HL)` (R111), opcode 0x66. -/
  | ldHMhl
  /-- `LD H,A` (R110), opcode 0x67. -/
  | ldHA
  /-- `LD L,B` (R110), opcode 0x68. -/
  | ldLB
  /-- `LD L,C` (R110), opcode 0x69. -/
  | ldLC
  /-- `LD L,D` (R110), opcode 0x6A. -/
  | ldLD
  /-- `LD L,E` (R110), opcode 0x6B. -/
  | ldLE
  /-- `LD L,H` (R110), opcode 0x6C. -/
  | ldLH
  /-- `LD L,L` (R110), opcode 0x6D. -/
  | ldLL
  /-- `LD L,(HL)` (R111), opcode 0x6E. -/
  | ldLMhl
  /-- `LD L,A` (R110), opcode 0x6F. -/
  | ldLA
  /-- `LD (HL),B` (R112), opcode 0x70. -/
  | ldMhlB
  /-- `LD (HL),C` (R112), opcode 0x71. -/
  | ldMhlC
  /-- `LD (HL),D` (R112), opcode 0x72. -/
  | ldMhlD
  /-- `LD (HL),E` (R112), opcode 0x73. -/
  | ldMhlE
  /-- `LD (HL),H` (R112), opcode 0x74. -/
  | ldMhlH
  /-- `LD (HL),L` (R112), opcode 0x75. -/
  | ldMhlL
  /-- `LD (HL),(HL)` (R113), opcode 0x76. -/
  | ldMhlMhl
  /-- `LD (HL),A` (R112), opcode 0x77. -/
  | ldMhlA
  /-- `LD A,B` (R110), opcode 0x78. -/
  | ldAB
  /-- `LD A,C` (R110), opcode 0x79. -/
  | ldAC
  /-- `LD A,D` (R110), opcode 0x7A. -/
  | ldAD
  /-- `LD A,E` (R110), opcode 0x7B. -/
  | ldAE
  /-- `LD A,H` (R110), opcode 0x7C. -/
  | ldAH
  /-- `LD A,L` (R110), opcode 0x7D. -/
  | ldAL
  /-- `LD A,(HL)` (R111), opcode 0x7E. -/
  | ldAMhl
  /-- `LD A,A` (R110), opcode 0x7F. -/
  | ldAA
  /-- `ADD A,B` (R129), opcode 0x80. -/
  | addAB
  /-- `ADD A,C` (R129), opcode 0x81. -/
  | addAC
  /-- `ADD A,D` (R129), opcode 0x82. -/
  | addAD
  /-- `ADD A,E` (R129), opcode 0x83. -/
  | addAE
  /-- `ADD A,H` (R129), opcode 0x84. -/
  | addAH
  /-- `ADD A,L` (R129), opcode 0x85. -/
  | addAL
  /-- `ADD A,(HL)` (R130), opcode 0x86. -/
  | addAMhl
  /-- `ADD A,A` (R129), opcode 0x87. -/
  | addAA
  /-- `SUB A,B` (R131), opcode 0x90. -/
  | subAB
  /-- `SUB A,C` (R131), opcode 0x91. -/
  | subAC
  /-- `SUB A,D` (R131), opcode 0x92. -/
  | subAD
  /-- `SUB A,E` (R131), opcode 0x93. -/
  | subAE
  /-- `SUB A,H` (R131), opcode 0x94. -/
  | subAH
  /-- `SUB A,L` (R131), opcode 0x95. -/
  | subAL
  /-- `SUB A,(HL)` (R132), opcode 0x96. -/
  | subAMhl
  /-- `SUB A,A` (R131), opcode 0x97. -/
  | subAA
  /-- `XOR A,B` (R133), opcode 0xA8. -/
  | xorAB
  /-- `XOR A,C` (R133), opcode 0xA9. -/
  | xorAC
  /-- `XOR A,D` (R133), opcode 0xAA. -/
  | xorAD
  /-- `XOR A,E` (R133), opcode 0xAB. -/
  | xorAE
  /-- `XOR A,H` (R133), opcode 0xAC. -/
  | xorAH
  /-- `XOR A,L` (R133), opcode 0xAD. -/
  | xorAL
  /-- `XOR A,(HL)` (R134), opcode 0xAE. -/
  | xorAMhl
  /-- `XOR A,A` (R133), opcode 0xAF. -/
  | xorAA
  /-- `JP a16` (R140), opcode 0xC3. -/
  | jpA16 (a16 : Word)
  /-- `any opcode byte that R96 does not list` (R97). -/
  | unimplemented (opcode : Byte)
  deriving DecidableEq, Repr

end Sys2Proof
end

