-- ==== Sys2Proof/WellFormed.lean ====
section
/-! DEFINITION. Which instruction terms stand for something the decoder can yield. Every operand value is legal (R99), so
the one check is on the default row: its byte must be one of the 155 values of R97. -/
namespace Sys2Proof

/-- The 155 opcode bytes with no handler, range by range as R97 lists them. -/
def unimplementedByte (op : Byte) : Bool :=
  let n := op.toNat
  (n ≤ 0x03) || (0x05 ≤ n && n ≤ 0x0B) || (0x0D ≤ n && n ≤ 0x0F) || (0x11 ≤ n && n ≤ 0x13)
    || (0x15 ≤ n && n ≤ 0x17) || (0x19 ≤ n && n ≤ 0x1B) || (0x1D ≤ n && n ≤ 0x1F) || (0x21 ≤ n && n ≤ 0x23)
    || (0x25 ≤ n && n ≤ 0x27) || (0x29 ≤ n && n ≤ 0x2B) || (0x2D ≤ n && n ≤ 0x33) || (0x35 ≤ n && n ≤ 0x3B)
    || (0x3D ≤ n && n ≤ 0x3F) || (0x88 ≤ n && n ≤ 0x8F) || (0x98 ≤ n && n ≤ 0xA7) || (0xB0 ≤ n && n ≤ 0xC2)
    || (0xC4 ≤ n)

/-- An instruction the decoder can yield (R95): any admitted instruction with any operand (R99), or the default row with
an unimplemented byte (R97). -/
def Instr.wf : Instr → Bool
  | .unimplemented op => unimplementedByte op
  | _ => true

end Sys2Proof
end

