-- ==== Sys2Proof/Decode.lean ====
section
/-! DEFINITION. The decoder (R90 to R99), total on any bytes, by the bit-masked groups and exact values of R92; and the
encoder, from the opcode map of R96. The two are written from different parts of the spec and proved to agree. -/
namespace Sys2Proof

/-- What a 3-bit register field selects (R93): the closed enumeration of eight values. `mhl` is code 6, the memory byte
at `RP[HL]`; slot F is not among them. -/
inductive Reg8 where
  | b | c | d | e | h | l | mhl | a
  deriving DecidableEq, Repr

/-- The table of R93 from field value to operand. -/
def Reg8.ofCode (k : BitVec 3) : Reg8 :=
  match k.toNat with
  | 0 => .b
  | 1 => .c
  | 2 => .d
  | 3 => .e
  | 4 => .h
  | 5 => .l
  | 6 => .mhl
  | _ => .a

/-- Field `y` of the opcode byte, bits 5 to 3 (R91). -/
def fieldY (op : Byte) : BitVec 3 := op.extractLsb' 3 3

/-- Field `z` of the opcode byte, bits 2 to 0 (R91). -/
def fieldZ (op : Byte) : BitVec 3 := op.extractLsb' 0 3

/-- The increment group by operand code (R92 (a)). -/
def Instr.inc : Reg8 → Instr
  | .b => .incB
  | .c => .incC
  | .d => .incD
  | .e => .incE
  | .h => .incH
  | .l => .incL
  | .mhl => .incMhl
  | .a => .incA

/-- The move block by destination and source code (R92 (b)). -/
def Instr.ld : Reg8 → Reg8 → Instr
  | .b, .b => .ldBB | .b, .c => .ldBC | .b, .d => .ldBD | .b, .e => .ldBE | .b, .h => .ldBH | .b, .l => .ldBL | .b, .mhl => .ldBMhl | .b, .a => .ldBA
  | .c, .b => .ldCB | .c, .c => .ldCC | .c, .d => .ldCD | .c, .e => .ldCE | .c, .h => .ldCH | .c, .l => .ldCL | .c, .mhl => .ldCMhl | .c, .a => .ldCA
  | .d, .b => .ldDB | .d, .c => .ldDC | .d, .d => .ldDD | .d, .e => .ldDE | .d, .h => .ldDH | .d, .l => .ldDL | .d, .mhl => .ldDMhl | .d, .a => .ldDA
  | .e, .b => .ldEB | .e, .c => .ldEC | .e, .d => .ldED | .e, .e => .ldEE | .e, .h => .ldEH | .e, .l => .ldEL | .e, .mhl => .ldEMhl | .e, .a => .ldEA
  | .h, .b => .ldHB | .h, .c => .ldHC | .h, .d => .ldHD | .h, .e => .ldHE | .h, .h => .ldHH | .h, .l => .ldHL | .h, .mhl => .ldHMhl | .h, .a => .ldHA
  | .l, .b => .ldLB | .l, .c => .ldLC | .l, .d => .ldLD | .l, .e => .ldLE | .l, .h => .ldLH | .l, .l => .ldLL | .l, .mhl => .ldLMhl | .l, .a => .ldLA
  | .mhl, .b => .ldMhlB | .mhl, .c => .ldMhlC | .mhl, .d => .ldMhlD | .mhl, .e => .ldMhlE | .mhl, .h => .ldMhlH | .mhl, .l => .ldMhlL | .mhl, .mhl => .ldMhlMhl | .mhl, .a => .ldMhlA
  | .a, .b => .ldAB | .a, .c => .ldAC | .a, .d => .ldAD | .a, .e => .ldAE | .a, .h => .ldAH | .a, .l => .ldAL | .a, .mhl => .ldAMhl | .a, .a => .ldAA

/-- The ADD group by source operand code (R92 (c)). -/
def Instr.add : Reg8 → Instr
  | .b => .addAB
  | .c => .addAC
  | .d => .addAD
  | .e => .addAE
  | .h => .addAH
  | .l => .addAL
  | .mhl => .addAMhl
  | .a => .addAA

/-- The SUB group by source operand code (R92 (c)). -/
def Instr.sub : Reg8 → Instr
  | .b => .subAB
  | .c => .subAC
  | .d => .subAD
  | .e => .subAE
  | .h => .subAH
  | .l => .subAL
  | .mhl => .subAMhl
  | .a => .subAA

/-- The XOR group by source operand code (R92 (c)). -/
def Instr.xor : Reg8 → Instr
  | .b => .xorAB
  | .c => .xorAC
  | .d => .xorAD
  | .e => .xorAE
  | .h => .xorAH
  | .l => .xorAL
  | .mhl => .xorAMhl
  | .a => .xorAA

/-- What the opcode byte alone decides (R90, R91, R95): the whole instruction (format O), or an instruction still to be
given its displacement byte (format OE) or its address (format OA). -/
inductive Format where
  | o (i : Instr)
  | oe (withDisplacement : Byte → Instr)
  | oa (withAddress : Word → Instr)

/-- The decoder proper, `decode : byte -> instruction`, total on the 256 byte values (R92, R95, R97). It reads the opcode
byte and nothing else. -/
def decodeOpcode (op : Byte) : Format :=
  if op &&& 0xC7#8 = 0x04#8 then .o (.inc (.ofCode (fieldY op)))
  else if op &&& 0xC0#8 = 0x40#8 then .o (.ld (.ofCode (fieldY op)) (.ofCode (fieldZ op)))
  else if op &&& 0xF8#8 = 0x80#8 then .o (.add (.ofCode (fieldZ op)))
  else if op &&& 0xF8#8 = 0x90#8 then .o (.sub (.ofCode (fieldZ op)))
  else if op &&& 0xF8#8 = 0xA8#8 then .o (.xor (.ofCode (fieldZ op)))
  else if op = 0x10#8 then .o .stop
  else if op = 0x18#8 then .oe .jrE8
  else if op = 0x20#8 then .oe .jrNzE8
  else if op = 0x28#8 then .oe .jrZE8
  else if op = 0xC3#8 then .oa .jpA16
  else .o (.unimplemented op)

/-- A 16-bit value from its bytes in increasing address order, the lowest address holding the low byte (R66). -/
def littleEndian (bytes : List Byte) : Word :=
  bytes.foldr (fun b rest => (rest <<< 8) ||| b.setWidth 16) 0#16

/-- Why a byte sequence holds no instruction: it ends before the instruction does. Every complete one decodes (R95). -/
inductive DecodeError where
  | noOpcode
  | operandMissing (opcode : Byte)
  deriving DecidableEq, Repr

/-- Decode the instruction at the front of a byte sequence, giving the bytes after it (R90, R91). -/
def decode : List Byte → Except DecodeError (Instr × List Byte)
  | [] => .error .noOpcode
  | op :: rest =>
    match decodeOpcode op with
    | .o i => .ok (i, rest)
    | .oe mk =>
      match rest with
      | e :: rest => .ok (mk e, rest)
      | [] => .error (.operandMissing op)
    | .oa mk =>
      match rest with
      | lo :: hi :: rest => .ok (mk (littleEndian [lo, hi]), rest)
      | _ => .error (.operandMissing op)

/-- The opcode byte of an instruction, row by row as the map of R96 has it. -/
def Instr.opcode : Instr → Byte
  | .incB => 0x04#8
  | .incC => 0x0C#8
  | .stop => 0x10#8
  | .incD => 0x14#8
  | .jrE8 _ => 0x18#8
  | .incE => 0x1C#8
  | .jrNzE8 _ => 0x20#8
  | .incH => 0x24#8
  | .jrZE8 _ => 0x28#8
  | .incL => 0x2C#8
  | .incMhl => 0x34#8
  | .incA => 0x3C#8
  | .ldBB => 0x40#8
  | .ldBC => 0x41#8
  | .ldBD => 0x42#8
  | .ldBE => 0x43#8
  | .ldBH => 0x44#8
  | .ldBL => 0x45#8
  | .ldBMhl => 0x46#8
  | .ldBA => 0x47#8
  | .ldCB => 0x48#8
  | .ldCC => 0x49#8
  | .ldCD => 0x4A#8
  | .ldCE => 0x4B#8
  | .ldCH => 0x4C#8
  | .ldCL => 0x4D#8
  | .ldCMhl => 0x4E#8
  | .ldCA => 0x4F#8
  | .ldDB => 0x50#8
  | .ldDC => 0x51#8
  | .ldDD => 0x52#8
  | .ldDE => 0x53#8
  | .ldDH => 0x54#8
  | .ldDL => 0x55#8
  | .ldDMhl => 0x56#8
  | .ldDA => 0x57#8
  | .ldEB => 0x58#8
  | .ldEC => 0x59#8
  | .ldED => 0x5A#8
  | .ldEE => 0x5B#8
  | .ldEH => 0x5C#8
  | .ldEL => 0x5D#8
  | .ldEMhl => 0x5E#8
  | .ldEA => 0x5F#8
  | .ldHB => 0x60#8
  | .ldHC => 0x61#8
  | .ldHD => 0x62#8
  | .ldHE => 0x63#8
  | .ldHH => 0x64#8
  | .ldHL => 0x65#8
  | .ldHMhl => 0x66#8
  | .ldHA => 0x67#8
  | .ldLB => 0x68#8
  | .ldLC => 0x69#8
  | .ldLD => 0x6A#8
  | .ldLE => 0x6B#8
  | .ldLH => 0x6C#8
  | .ldLL => 0x6D#8
  | .ldLMhl => 0x6E#8
  | .ldLA => 0x6F#8
  | .ldMhlB => 0x70#8
  | .ldMhlC => 0x71#8
  | .ldMhlD => 0x72#8
  | .ldMhlE => 0x73#8
  | .ldMhlH => 0x74#8
  | .ldMhlL => 0x75#8
  | .ldMhlMhl => 0x76#8
  | .ldMhlA => 0x77#8
  | .ldAB => 0x78#8
  | .ldAC => 0x79#8
  | .ldAD => 0x7A#8
  | .ldAE => 0x7B#8
  | .ldAH => 0x7C#8
  | .ldAL => 0x7D#8
  | .ldAMhl => 0x7E#8
  | .ldAA => 0x7F#8
  | .addAB => 0x80#8
  | .addAC => 0x81#8
  | .addAD => 0x82#8
  | .addAE => 0x83#8
  | .addAH => 0x84#8
  | .addAL => 0x85#8
  | .addAMhl => 0x86#8
  | .addAA => 0x87#8
  | .subAB => 0x90#8
  | .subAC => 0x91#8
  | .subAD => 0x92#8
  | .subAE => 0x93#8
  | .subAH => 0x94#8
  | .subAL => 0x95#8
  | .subAMhl => 0x96#8
  | .subAA => 0x97#8
  | .xorAB => 0xA8#8
  | .xorAC => 0xA9#8
  | .xorAD => 0xAA#8
  | .xorAE => 0xAB#8
  | .xorAH => 0xAC#8
  | .xorAL => 0xAD#8
  | .xorAMhl => 0xAE#8
  | .xorAA => 0xAF#8
  | .jpA16 _ => 0xC3#8
  | .unimplemented op => op

/-- The operand bytes of an instruction in address order (R91): none, `e8`, or `a16` low byte first. -/
def Instr.operandBytes : Instr → List Byte
  | .jrE8 e8 | .jrNzE8 e8 | .jrZE8 e8 => [e8]
  | .jpA16 a16 => [a16.extractLsb' 0 8, a16.extractLsb' 8 8]
  | _ => []

/-- The bytes of an instruction, the opcode at the lowest address (R90). -/
def encode (i : Instr) : List Byte := i.opcode :: i.operandBytes

/-- The bytes of a table row: bit 0 of `w` is bit 0 of the first byte, `nbits` bits are given, and every later bit of the
longest instruction (three bytes, R90) is zero. -/
def tableBytes (nbits w : Nat) : List Byte :=
  [BitVec.ofNat 8 (w % 2 ^ nbits), BitVec.ofNat 8 (w % 2 ^ nbits / 256), BitVec.ofNat 8 (w % 2 ^ nbits / 65536)]

/-- The instruction the decoder reads from a table row's bits. -/
def decodeTableWord (nbits w : Nat) : Option Instr :=
  match decode (tableBytes nbits w) with
  | .ok (i, _) => some i
  | .error _ => none

end Sys2Proof
end

