-- ==== Sys2Proof/Config.lean ====
section
/-! DEFINITION. The fixed parameters of the hardware (R7) and the host's pacing constants (R9, R203). `CART` and
`INIT_WORK` (R8) are arguments of `loadCartridge` and `State.construct`. One value is free: the state after a fault. -/
namespace Sys2Proof.Config

/-- `WORK_SIZE`, the bytes of the Work RAM backing store (R7, R34). -/
abbrev workSize : Nat := 0x40000

/-- The bytes of one ROM bank (R7). -/
abbrev romBankSize : Nat := 0x4000

/-- The bytes of one Work RAM bank (R7). -/
abbrev workBankSize : Nat := 0x1000

/-- The value `load_cartridge` gives `pc` (R7, R193). -/
abbrev entryPoint : Word := 0x0100#16

/-- What a Work RAM offset that is not listed in a `Memory` reads as. DESIGN CHOICE (notes/assumptions/1.md), unsafe:
the spec leaves the initial contents open (R42, D16). -/
def unlistedByte : Byte := 0x00#8

/-- What the machine holds after a fault, from what it held before: a free value. R166 leaves it unspecified and forbids a
claim to read it (U15), so nothing says what it is (notes/assumptions/2.md). -/
opaque afterFault {σ : Type} [Inhabited σ] (before : σ) : σ

/-- The emulated clock rate in hertz, for the host only (R9, R203). -/
def clockRate : Nat := 4194304

/-- The host's target frame rate in hertz (R9, R203). -/
def frameRate : Nat := 60

/-- The host's clock cycles per frame, rounded down (R9, R203). -/
def cyclesPerFrame : Nat := clockRate / frameRate

end Sys2Proof.Config
end

