-- ==== Sys2Proof/Machine/State.lean ====
section
/-! DEFINITION. The state of the machine (10_state.md), its reset value, and the reasons a step can stop. Plain data. -/
namespace Sys2Proof.Machine

/-- The eight 8-bit slots, in the slot order of R20. -/
inductive Slot where
  | b | c | d | e | h | l | f | a
  deriving DecidableEq, Repr

/-- The four 16-bit pair views (R22, R24). -/
inductive Pair where
  | bc | de | hl | af
  deriving DecidableEq, Repr

/-- The contents of the eight slots (R20). `f` is the flag byte (R26). -/
structure Slots where
  b : Byte
  c : Byte
  d : Byte
  e : Byte
  h : Byte
  l : Byte
  f : Byte
  a : Byte
  deriving DecidableEq, Repr, Inhabited

/-- The four flags as the flag derivation unit yields them (R26). -/
structure Flags where
  z : Bool
  n : Bool
  h : Bool
  c : Bool
  deriving DecidableEq, Repr

/-- What an 8-bit operation yields: a byte and four flag bits (R120 to R124). -/
structure AluResult where
  result : Byte
  flags : Flags
  deriving DecidableEq, Repr

/-- `run_state` (R39). -/
inductive RunState where
  | running
  | halted
  | faulted
  deriving DecidableEq, Repr, Inhabited

/-- The kind column of the address to region table, one name per row (R52). -/
inductive RegionKind where
  | romFixed | romSwitch | videoRam | externalRam | workFixed | workSwitch
  | illegalEcho | oam | illegalGap | io | highRam | interruptEnable
  deriving DecidableEq, Repr

/-- A region descriptor (R51): the kind and, but for three kinds, the offset into that region's backing store. -/
inductive Region where
  | romFixed (offset : Nat)
  | romSwitch (offset : Nat)
  | videoRam (offset : Nat)
  | externalRam (offset : Nat)
  | workFixed (offset : Nat)
  | workSwitch (offset : Nat)
  | illegalEcho
  | oam (offset : Nat)
  | illegalGap
  | io (offset : Nat)
  | highRam (offset : Nat)
  | interruptEnable
  deriving DecidableEq, Repr

/-- The faults raised inside the core, with their report fields (R160). Each ends the step and the run (R166): the
machine is FAULTED and the report is the only output. All are the spec's own, so stopping is what the hardware does;
a stop is safe in any case. -/
inductive Fault where
  /-- An access to E000–FDFF or FEA0–FEFF (R161). Raised by any read, write or fetch. Safe. -/
  | illegalAddress (address : Word)
  /-- An access to a region with no backing store (R162). Raised by any read, write or fetch. Safe. -/
  | unimplementedRegion (address : Word) (kind : RegionKind)
  /-- A write to 0000–7FFF (R163). Raised by `LD (HL),r`, `INC (HL)` and `LD (HL),(HL)`. Safe. -/
  | readOnlyViolation (address : Word)
  /-- A fetched opcode byte with no handler (R164). Raised by the instruction `UNIMPLEMENTED`. Safe. -/
  | unimplementedOpcode (opcode : Byte) (address : Word)
  /-- A ROM offset at or beyond `CART_LEN`, or a Work RAM offset at or beyond `WORK_SIZE` (R165). Raised by reads and
  fetches of ROM and by any access to Work RAM. Safe. -/
  | backingOutOfRange (address : Word) (offset : Nat)
  /-- A `read_sized<N>` whose bytes are not all in one row of the region table (R165). Raised by the operand read of
  `JP a16`. Safe. -/
  | crossRegionRead (address : Word) (n : Nat)
  deriving DecidableEq, Repr

/-- The requests the machine does not answer. No instruction raises either of the last two. -/
inductive Refusal where
  /-- An instruction that has no meaning yet; raised by no arm of this model. Safe. -/
  | notModelled (mnemonic : String)
  /-- `step()` in FAULTED, which is not callable (R107, R166). Raised by `step`. Safe. -/
  | stepInFaulted
  /-- `load_cartridge` in FAULTED, which is not callable (R166, R194). Raised by `loadCartridge`. Safe. -/
  | loadInFaulted
  deriving DecidableEq, Repr

/-- The contents of the Work RAM backing store by offset (R34), sparse: an offset that is not listed reads as
`Config.unlistedByte`. `Memory.wf` is its canonical form. -/
abbrev Memory := List Host.Cell

/-- The canonical form: offsets strictly rising and inside the store, and no entry equal to what an unlisted offset
reads as. -/
abbrev Memory.wf (m : Memory) : Prop :=
  m.Pairwise (fun x y => x.1 < y.1) ∧ ∀ x ∈ m, x.1 < Config.workSize ∧ x.2 ≠ Config.unlistedByte

/-- Every piece of state of the block (10_state.md R20 to R45). -/
structure State where
  /-- The eight 8-bit slots B, C, D, E, H, L, F, A (R20). -/
  slots : Slots
  /-- The stack pointer: state with a reset value and no user (R25, R30). -/
  sp : Word
  /-- The program counter (R25, R31). -/
  pc : Word
  /-- `CART`: the cartridge byte sequence; its length is `CART_LEN` (R33). -/
  cart : List Byte
  /-- `work`: the Work RAM backing store (R34). -/
  work : Memory
  /-- The Work RAM bank selector, a natural number ≥ 1 (R35). -/
  workBank : Nat
  /-- The ROM bank selector, a natural number ≥ 1 (R35). -/
  romBank : Nat
  /-- The Video RAM bank selector; `true` is bank 1 (R35). -/
  videoBank : Bool
  /-- The engine state (R39). -/
  runState : RunState
  deriving DecidableEq, Repr, Inhabited

/-- `construct()` (R42, R190, R198): every register zero, no cartridge, the selectors at their defaults, RUNNING. The
initial contents of Work RAM are the open parameter `INIT_WORK` (R8), here the argument. -/
def State.construct (initWork : Memory) : State where
  slots := { b := 0x00#8, c := 0x00#8, d := 0x00#8, e := 0x00#8, h := 0x00#8, l := 0x00#8, f := 0x00#8, a := 0x00#8 }
  sp := 0x0000#16
  pc := 0x0000#16
  cart := []
  work := initWork
  workBank := 1
  romBank := 1
  videoBank := false
  runState := .running

/-- The machine right after reset: `construct()` with a Work RAM that lists nothing. DESIGN CHOICE for `INIT_WORK`
(notes/assumptions/1.md), unsafe; every other field is as R42 states it. -/
def State.reset : State := State.construct []

end Sys2Proof.Machine
end

