-- ==== Sys2Proof/Machine/Ops.lean ====
section
/-! DEFINITION. The named operations over registers and memory (00_scope.md R13 to R16, 10_state.md, 20_memory.md):
slots, pairs, `map`, the byte accessors, `read_sized`, `FetchByte`, the instruction fetch, the interrupt check and
`raise`. -/
namespace Sys2Proof.Machine

/-! ## Registers -/

/-- `R[r]` (R13, R21). -/
def getSlot (s : State) : Slot → Byte
  | .b => s.slots.b
  | .c => s.slots.c
  | .d => s.slots.d
  | .e => s.slots.e
  | .h => s.slots.h
  | .l => s.slots.l
  | .f => s.slots.f
  | .a => s.slots.a

/-- `R[r] <- v` (R13, R21): replaces one slot and no other state. -/
def setSlot (s : State) (r : Slot) (v : Byte) : State :=
  match r with
  | .b => { s with slots := { s.slots with b := v } }
  | .c => { s with slots := { s.slots with c := v } }
  | .d => { s with slots := { s.slots with d := v } }
  | .e => { s with slots := { s.slots with e := v } }
  | .h => { s with slots := { s.slots with h := v } }
  | .l => { s with slots := { s.slots with l := v } }
  | .f => { s with slots := { s.slots with f := v } }
  | .a => { s with slots := { s.slots with a := v } }

/-- The slot that is a pair's high byte (R22, R24). -/
def Pair.high : Pair → Slot
  | .bc => .b
  | .de => .d
  | .hl => .h
  | .af => .a

/-- The slot that is a pair's low byte (R22, R24). -/
def Pair.low : Pair → Slot
  | .bc => .c
  | .de => .e
  | .hl => .l
  | .af => .f

/-- `hi8(v)`, bits 15 to 8 (R11). -/
def hi8 (v : Word) : Byte := v.extractLsb' 8 8

/-- `lo8(v)`, bits 7 to 0 (R11). -/
def lo8 (v : Word) : Byte := v.extractLsb' 0 8

/-- `sext_16(b)` (R12). -/
def sext16 (b : Byte) : Word := b.signExtend 16

/-- `RP[p]`, `read_pair` (R22 to R24): the high slot above the low slot. -/
def getPair (s : State) (p : Pair) : Word := getSlot s p.high ++ getSlot s p.low

/-- `RP[p] <- v`, `write_pair` (R23). No admitted instruction uses this port. -/
def setPair (s : State) (p : Pair) (v : Word) : State :=
  setSlot (setSlot s p.high (hi8 v)) p.low (lo8 v)

/-- `pc <- v` (R13). -/
def setPc (s : State) (v : Word) : State := { s with pc := v }

/-- `run_state <- v` (R16). -/
def setRunState (s : State) (v : RunState) : State := { s with runState := v }

/-- Replace the contents of the Work RAM backing store. -/
def setWork (s : State) (m : Memory) : State := { s with work := m }

/-! ## The Work RAM backing store -/

/-- `work[o]` (R70). -/
def Memory.read : Memory → Nat → Byte
  | [], _ => Config.unlistedByte
  | (p, w) :: m, o => if o = p then w else Memory.read m o

/-- List `(o, v)` in front of `m`, or leave it unlisted when `v` is what an unlisted offset reads as. -/
def Memory.list (o : Nat) (v : Byte) (m : Memory) : Memory :=
  if v = Config.unlistedByte then m else (o, v) :: m

/-- `work[o] <- v`, keeping the canonical form. -/
def Memory.write : Memory → Nat → Byte → Memory
  | [], o, v => Memory.list o v []
  | (p, w) :: m, o, v =>
    if o < p then Memory.list o v ((p, w) :: m)
    else if o = p then Memory.list o v m
    else (p, w) :: Memory.write m o v

/-! ## The mapping function -/

/-- The row of the region table a descriptor stands in (R52). -/
def Region.kind : Region → RegionKind
  | .romFixed _ => .romFixed
  | .romSwitch _ => .romSwitch
  | .videoRam _ => .videoRam
  | .externalRam _ => .externalRam
  | .workFixed _ => .workFixed
  | .workSwitch _ => .workSwitch
  | .illegalEcho => .illegalEcho
  | .oam _ => .oam
  | .illegalGap => .illegalGap
  | .io _ => .io
  | .highRam _ => .highRam
  | .interruptEnable => .interruptEnable

/-- `map` (R51 to R57): pure classification and offset computation, offsets as natural numbers. -/
def mapAddress (address : Word) (workBank romBank : Nat) (videoBank : Bool) : Region :=
  let a := address.toNat
  if a ≤ 0x3FFF then .romFixed a
  else if a ≤ 0x7FFF then .romSwitch (a + (romBank - 1) * Config.romBankSize)
  else if a ≤ 0x9FFF then .videoRam (a - (if videoBank then 0x8000 else 0x6000))
  else if a ≤ 0xBFFF then .externalRam (a - 0xA000)
  else if a ≤ 0xCFFF then .workFixed (a - 0xC000)
  else if a ≤ 0xDFFF then .workSwitch (a - 0xD000 + workBank * Config.workBankSize)
  else if a ≤ 0xFDFF then .illegalEcho
  else if a ≤ 0xFE9F then .oam (a - 0xFE00)
  else if a ≤ 0xFEFF then .illegalGap
  else if a ≤ 0xFF7F then .io (a - 0xFF00)
  else if a ≤ 0xFFFE then .highRam (a - 0xFF80)
  else .interruptEnable

/-- `map` under the selectors the state holds (R37). -/
def region (s : State) (address : Word) : Region := mapAddress address s.workBank s.romBank s.videoBank

/-! ## The byte accessors -/

/-- A read of `CART[o]` (R58, R62). -/
def readCart (s : State) (address : Word) (o : Nat) : Except Fault Byte :=
  match s.cart[o]? with
  | some v => .ok v
  | none => .error (.backingOutOfRange address o)

/-- A read of `work[o]` (R58, R62). -/
def readWork (s : State) (address : Word) (o : Nat) : Except Fault Byte :=
  if o < Config.workSize then .ok (Memory.read s.work o) else .error (.backingOutOfRange address o)

/-- A write of `work[o]` (R59, R62). -/
def writeWork (s : State) (address : Word) (o : Nat) (v : Byte) : Except Fault State :=
  if o < Config.workSize then .ok (setWork s (Memory.write s.work o v)) else .error (.backingOutOfRange address o)

/-- `read_byte(address)` (R58, R60 to R63). A read changes no state. -/
def readByte (s : State) (address : Word) : Except Fault Byte :=
  match region s address with
  | .illegalEcho | .illegalGap => .error (.illegalAddress address)
  | .videoRam _ => .error (.unimplementedRegion address .videoRam)
  | .externalRam _ => .error (.unimplementedRegion address .externalRam)
  | .oam _ => .error (.unimplementedRegion address .oam)
  | .io _ => .error (.unimplementedRegion address .io)
  | .highRam _ => .error (.unimplementedRegion address .highRam)
  | .interruptEnable => .error (.unimplementedRegion address .interruptEnable)
  | .romFixed o | .romSwitch o => readCart s address o
  | .workFixed o | .workSwitch o => readWork s address o

/-- `write_byte(address, v)` (R59 to R63): at most one byte of `work` changes. -/
def writeByte (s : State) (address : Word) (v : Byte) : Except Fault State :=
  match region s address with
  | .illegalEcho | .illegalGap => .error (.illegalAddress address)
  | .romFixed _ | .romSwitch _ => .error (.readOnlyViolation address)
  | .videoRam _ => .error (.unimplementedRegion address .videoRam)
  | .externalRam _ => .error (.unimplementedRegion address .externalRam)
  | .oam _ => .error (.unimplementedRegion address .oam)
  | .io _ => .error (.unimplementedRegion address .io)
  | .highRam _ => .error (.unimplementedRegion address .highRam)
  | .interruptEnable => .error (.unimplementedRegion address .interruptEnable)
  | .workFixed o | .workSwitch o => writeWork s address o v

/-- `n` reads at increasing addresses, stopping at the first fault (R64, R79). -/
def readBytes (s : State) (address : Word) : Nat → Except Fault (List Byte)
  | 0 => .ok []
  | n + 1 =>
    match readByte s address with
    | .error r => .error r
    | .ok b =>
      match readBytes s (address + 1#16) n with
      | .error r => .error r
      | .ok bs => .ok (b :: bs)

/-- `read_sized<N>(address)` (R64): the first and the last byte must lie in one row of the region table, which is checked
before any byte is read. `N` is at least 1 (notes/assumptions/9.md). -/
def readSized (s : State) (address : Word) (n : Nat) : Except Fault (List Byte) :=
  if 0xFFFF < address.toNat + (n - 1)
      ∨ (region s address).kind ≠ (region s (address + BitVec.ofNat 16 (n - 1))).kind then
    .error (.crossRegionRead address n)
  else readBytes s address n

/-- `MemRead(address, 2)` (R15, R66): two bytes, little-endian. -/
def readWord (s : State) (address : Word) : Except Fault Word :=
  match readSized s address 2 with
  | .error r => .error r
  | .ok bytes => .ok (littleEndian bytes)

/-! ## The step's stages -/

/-- `FetchByte()`, `next_program_byte` (R65): the byte at `pc` and the state with `pc` one further, modulo 2^16. -/
def fetchByte (s : State) : Except Fault (Byte × State) :=
  match readByte s s.pc with
  | .error r => .error r
  | .ok b => .ok (b, setPc s (s.pc + 1#16))

/-- Stage 1, the interrupt check: a no-op (R103, R170). -/
def interruptCheck (s : State) : State := s

/-- Stages 2 and 3 and the operand bytes (R102, R104, R94): the opcode byte is fetched and decoded, then a displacement
byte is fetched with `FetchByte`, or a two-byte address is read at `pc`, which stays one past the opcode (R140). The
first fault ends the step (R79, R168). The state given is the one the instruction's effect starts from
(notes/assumptions/4.md). -/
def fetchInstr (s : State) : Except Fault (Instr × State) :=
  match fetchByte s with
  | .error r => .error r
  | .ok (op, s1) =>
    match decodeOpcode op with
    | .o i => .ok (i, s1)
    | .oe mk =>
      match fetchByte s1 with
      | .error r => .error r
      | .ok (e8, s2) => .ok (mk e8, s2)
    | .oa mk =>
      match readWord s1 s1.pc with
      | .error r => .error r
      | .ok a16 => .ok (mk a16, s1)

/-! ## Placing an instruction -/

/-- A cartridge with `bytes` at offset `o` and its other bytes as they were, zeros filling a gap before `o`. -/
def patchCart (cart : List Byte) (o : Nat) (bytes : List Byte) : List Byte :=
  (cart ++ List.replicate (o - cart.length) 0x00#8).take o ++ bytes ++ cart.drop (o + bytes.length)

/-- Where `withFetchWord` puts the instruction: at `pc` when all three bytes from there lie in the fixed ROM bank, which
every bank selector leaves at offset `pc` (R54); else at the entry point of `load_cartridge` (R193). -/
def programAddress (s : State) : Word := if s.pc.toNat ≤ 0x3FFD then s.pc else Config.entryPoint

/-! ## Faults -/

/-- `raise <Fault>(info)`, the machine's one exceptional event (R16, R166): the step ends with the report as its only
output and the machine is FAULTED. There is no handler, no vector and no saved register, and no state is given
(notes/assumptions/2.md). -/
def raise (r : Fault) : Host.Outcome State Fault Refusal := .fault r

/-- The outcome of an instruction's accesses: the next state, or the first fault raised (R79, R105). -/
def finish : Except Fault State → Host.Outcome State Fault Refusal
  | .ok t => .next t
  | .error r => raise r

/-- The part of fault entry that is state: `run_state` becomes FAULTED, and every other field holds a free value, since the
spec leaves it unspecified (R166, U15; notes/assumptions/2.md). Used by the host interface only. -/
def enterFaulted (s : State) : State := setRunState (Config.afterFault s) .faulted

end Sys2Proof.Machine
end

