-- ==== Sys2Proof/Machine/Flags.lean ====
section
/-! DEFINITION. The flag derivation unit (41_alu.md R120 to R126) and the flag byte (10_state.md R26, R27). -/
namespace Sys2Proof.Machine

/-- The flag byte: Z, N, H, C in bits 7 to 4 and zeros in bits 3 to 0 (R13, R26). -/
def packFlags (x : Flags) : Byte :=
  BitVec.ofBool x.z ++ BitVec.ofBool x.n ++ BitVec.ofBool x.h ++ BitVec.ofBool x.c ++ 0#4

/-- `SetFlags(z, n, h, c)` (R13): the only writer of slot F (R21). -/
def setFlags (s : State) (x : Flags) : State := setSlot s .f (packFlags x)

/-- `zero_flag()`, bit 7 of F (R27). -/
def zeroFlag (s : State) : Bool := (getSlot s .f).getLsbD 7

/-- `carry_flag()`, bit 4 of F (R27). -/
def carryFlag (s : State) : Bool := (getSlot s .f).getLsbD 4

/-- The low nibble of a byte, `x and 0x0F` (R120). -/
def lowNibble (x : Byte) : Nat := x.toNat % 16

/-- `add8(a, b)` (R120, R122). -/
def add8 (a b : Byte) : AluResult :=
  let sum := a.toNat + b.toNat
  let result := BitVec.ofNat 8 sum
  { result := result
    flags := { z := result == 0#8, n := false, h := decide (0x0F < lowNibble a + lowNibble b), c := decide (0xFF < sum) } }

/-- `sub8(a, b)` (R121, R122): N set, H and C are borrows. -/
def sub8 (a b : Byte) : AluResult :=
  let result := a - b
  { result := result
    flags := { z := result == 0#8, n := true, h := decide (lowNibble a < lowNibble b), c := decide (a.toNat < b.toNat) } }

/-- `inc8(a)` (R123): C keeps the old value `oldC`. -/
def inc8 (a : Byte) (oldC : Bool) : AluResult :=
  let result := a + 1#8
  { result := result
    flags := { z := result == 0#8, n := false, h := lowNibble a == 0x0F, c := oldC } }

/-- `xor8(a, b)` (R124). -/
def xor8 (a b : Byte) : AluResult :=
  let result := a ^^^ b
  { result := result
    flags := { z := result == 0#8, n := false, h := false, c := false } }

end Sys2Proof.Machine
end

