-- ==== Sys2Proof/Machine/Operands.lean ====
section
/-! DEFINITION. The operand forms: a 3-bit register field as source or destination (R14, R93). -/
namespace Sys2Proof.Machine

/-- The slot an operand code selects, none for code 6, the memory operand `(HL)` (R93). Slot F is never selected. -/
def operandSlot : Reg8 → Option Slot
  | .b => some .b
  | .c => some .c
  | .d => some .d
  | .e => some .e
  | .h => some .h
  | .l => some .l
  | .mhl => none
  | .a => some .a

/-- The address of the operand `(HL)`: `RP[HL]` (R14, R23). -/
def hlAddress (s : State) : Word := getPair s .hl

/-- `ReadOp(k)` (R14): a slot, or the memory byte at `RP[HL]`. -/
def readOp (k : Reg8) (s : State) : Except Fault Byte :=
  match operandSlot k with
  | some r => .ok (getSlot s r)
  | none => readByte s (hlAddress s)

/-- `WriteOp(k, v)` (R14): a slot, or the memory byte at `RP[HL]`. -/
def writeOp (k : Reg8) (v : Byte) (s : State) : Except Fault State :=
  match operandSlot k with
  | some r => .ok (setSlot s r v)
  | none => writeByte s (hlAddress s) v

end Sys2Proof.Machine
end

