-- ==== Sys2Proof/Machine/Cost.lean ====
section
/-! DEFINITION. The cycle costs of R96 and R202: an output of `step()` that no state stores and no rule reads. -/
namespace Sys2Proof.Machine

/-- The cost an instruction returns (R96, R106), from the state its effect starts in: a conditional relative jump costs 12
when taken and 8 when not (R142, R143). The default row returns none (R97); 0 stands there and is never returned. -/
def cycleCost (i : Instr) (s : State) : Nat :=
  match i with
  | .incB | .incC | .stop | .incD | .incE | .incH | .incL | .incA | .ldBB | .ldBC | .ldBD | .ldBE | .ldBH
  | .ldBL | .ldBA | .ldCB | .ldCC | .ldCD | .ldCE | .ldCH | .ldCL | .ldCA | .ldDB | .ldDC | .ldDD | .ldDE
  | .ldDH | .ldDL | .ldDA | .ldEB | .ldEC | .ldED | .ldEE | .ldEH | .ldEL | .ldEA | .ldHB | .ldHC | .ldHD
  | .ldHE | .ldHH | .ldHL | .ldHA | .ldLB | .ldLC | .ldLD | .ldLE | .ldLH | .ldLL | .ldLA | .ldAB | .ldAC
  | .ldAD | .ldAE | .ldAH | .ldAL | .ldAA | .addAB | .addAC | .addAD | .addAE | .addAH | .addAL | .addAA
  | .subAB | .subAC | .subAD | .subAE | .subAH | .subAL | .subAA | .xorAB | .xorAC | .xorAD | .xorAE | .xorAH
  | .xorAL | .xorAA => 4
  | .ldBMhl | .ldCMhl | .ldDMhl | .ldEMhl | .ldHMhl | .ldLMhl | .ldMhlB | .ldMhlC | .ldMhlD | .ldMhlE | .ldMhlH
  | .ldMhlL | .ldMhlMhl | .ldMhlA | .ldAMhl | .addAMhl | .subAMhl | .xorAMhl => 8
  | .jrE8 _ | .incMhl => 12
  | .jpA16 _ => 16
  | .jrNzE8 _ => if zeroFlag s then 8 else 12
  | .jrZE8 _ => if zeroFlag s then 12 else 8
  | .unimplemented _ => 0

/-- The cost of a step in HALTED (R107, R151). -/
def haltedCost : Nat := 4

end Sys2Proof.Machine
end

