-- ==== Sys2Proof/Machine/Alu.lean ====
section
/-! DEFINITION. The increment group and the arithmetic-logic groups (R127 to R134): two shared handlers, one meaning per
opcode. The flag derivations are in Machine/Flags.lean. -/
namespace Sys2Proof.Machine

/-- The increment group's one handler (R127, R128): read the operand, derive result and flags with `inc8`, write the
result, then write F. On a fault of the read or of the write nothing is changed. -/
def increment (k : Reg8) (s : State) : Host.Outcome State Fault Refusal :=
  finish <|
    match readOp k s with
    | .error r => .error r
    | .ok v =>
      match writeOp k (inc8 v (carryFlag s)).result s with
      | .error r => .error r
      | .ok t => .ok (setFlags t (inc8 v (carryFlag s)).flags)

/-- The handler of the ADD, SUB and XOR groups (R129 to R134): the left operand and destination is A, the right operand
is the operand code `k`; the operands are read before A and F are written (R136). -/
def accumulate (f : Byte → Byte → AluResult) (k : Reg8) (s : State) : Host.Outcome State Fault Refusal :=
  finish <|
    match readOp k s with
    | .error r => .error r
    | .ok v => .ok (setFlags (setSlot s .a (f (getSlot s .a) v).result) (f (getSlot s .a) v).flags)

/-- `INC B` (R127). -/
def execIncB (s : State) : Host.Outcome State Fault Refusal := increment .b s

/-- `INC C` (R127). -/
def execIncC (s : State) : Host.Outcome State Fault Refusal := increment .c s

/-- `INC D` (R127). -/
def execIncD (s : State) : Host.Outcome State Fault Refusal := increment .d s

/-- `INC E` (R127). -/
def execIncE (s : State) : Host.Outcome State Fault Refusal := increment .e s

/-- `INC H` (R127). -/
def execIncH (s : State) : Host.Outcome State Fault Refusal := increment .h s

/-- `INC L` (R127). -/
def execIncL (s : State) : Host.Outcome State Fault Refusal := increment .l s

/-- `INC (HL)` (R128). -/
def execIncMhl (s : State) : Host.Outcome State Fault Refusal := increment .mhl s

/-- `INC A` (R127). -/
def execIncA (s : State) : Host.Outcome State Fault Refusal := increment .a s

/-- `ADD A,B` (R129). -/
def execAddAB (s : State) : Host.Outcome State Fault Refusal := accumulate add8 .b s

/-- `ADD A,C` (R129). -/
def execAddAC (s : State) : Host.Outcome State Fault Refusal := accumulate add8 .c s

/-- `ADD A,D` (R129). -/
def execAddAD (s : State) : Host.Outcome State Fault Refusal := accumulate add8 .d s

/-- `ADD A,E` (R129). -/
def execAddAE (s : State) : Host.Outcome State Fault Refusal := accumulate add8 .e s

/-- `ADD A,H` (R129). -/
def execAddAH (s : State) : Host.Outcome State Fault Refusal := accumulate add8 .h s

/-- `ADD A,L` (R129). -/
def execAddAL (s : State) : Host.Outcome State Fault Refusal := accumulate add8 .l s

/-- `ADD A,(HL)` (R130). -/
def execAddAMhl (s : State) : Host.Outcome State Fault Refusal := accumulate add8 .mhl s

/-- `ADD A,A` (R129). -/
def execAddAA (s : State) : Host.Outcome State Fault Refusal := accumulate add8 .a s

/-- `SUB A,B` (R131). -/
def execSubAB (s : State) : Host.Outcome State Fault Refusal := accumulate sub8 .b s

/-- `SUB A,C` (R131). -/
def execSubAC (s : State) : Host.Outcome State Fault Refusal := accumulate sub8 .c s

/-- `SUB A,D` (R131). -/
def execSubAD (s : State) : Host.Outcome State Fault Refusal := accumulate sub8 .d s

/-- `SUB A,E` (R131). -/
def execSubAE (s : State) : Host.Outcome State Fault Refusal := accumulate sub8 .e s

/-- `SUB A,H` (R131). -/
def execSubAH (s : State) : Host.Outcome State Fault Refusal := accumulate sub8 .h s

/-- `SUB A,L` (R131). -/
def execSubAL (s : State) : Host.Outcome State Fault Refusal := accumulate sub8 .l s

/-- `SUB A,(HL)` (R132). -/
def execSubAMhl (s : State) : Host.Outcome State Fault Refusal := accumulate sub8 .mhl s

/-- `SUB A,A` (R131). -/
def execSubAA (s : State) : Host.Outcome State Fault Refusal := accumulate sub8 .a s

/-- `XOR A,B` (R133). -/
def execXorAB (s : State) : Host.Outcome State Fault Refusal := accumulate xor8 .b s

/-- `XOR A,C` (R133). -/
def execXorAC (s : State) : Host.Outcome State Fault Refusal := accumulate xor8 .c s

/-- `XOR A,D` (R133). -/
def execXorAD (s : State) : Host.Outcome State Fault Refusal := accumulate xor8 .d s

/-- `XOR A,E` (R133). -/
def execXorAE (s : State) : Host.Outcome State Fault Refusal := accumulate xor8 .e s

/-- `XOR A,H` (R133). -/
def execXorAH (s : State) : Host.Outcome State Fault Refusal := accumulate xor8 .h s

/-- `XOR A,L` (R133). -/
def execXorAL (s : State) : Host.Outcome State Fault Refusal := accumulate xor8 .l s

/-- `XOR A,(HL)` (R134). -/
def execXorAMhl (s : State) : Host.Outcome State Fault Refusal := accumulate xor8 .mhl s

/-- `XOR A,A` (R133). -/
def execXorAA (s : State) : Host.Outcome State Fault Refusal := accumulate xor8 .a s

end Sys2Proof.Machine
end

