-- ==== Sys2Proof/Machine/Control.lean ====
section
/-! DEFINITION. Control transfer (42_control_transfer.md R140 to R145). When a meaning starts, its operand bytes have been
read; for the relative jumps `pc` is then the address of the byte after the instruction (R144). -/
namespace Sys2Proof.Machine

/-- The target of a relative jump from the address after it, modulo 2^16 (R144). -/
def relativeTarget (pc : Word) (e8 : Byte) : Word := pc + sext16 e8

/-- A relative jump taken or not (R141 to R143). No target is checked (R145). -/
def jumpRelative (taken : Bool) (e8 : Byte) (s : State) : Host.Outcome State Fault Refusal :=
  finish (.ok (if taken then setPc s (relativeTarget s.pc e8) else s))

/-- `JP a16` (R140). -/
def execJpA16 (a16 : Word) (s : State) : Host.Outcome State Fault Refusal := finish (.ok (setPc s a16))

/-- `JR e8` (R141). -/
def execJrE8 (e8 : Byte) (s : State) : Host.Outcome State Fault Refusal := jumpRelative true e8 s

/-- `JR NZ,e8` (R142): taken when Z is clear. -/
def execJrNzE8 (e8 : Byte) (s : State) : Host.Outcome State Fault Refusal := jumpRelative (!zeroFlag s) e8 s

/-- `JR Z,e8` (R143): taken when Z is set. -/
def execJrZE8 (e8 : Byte) (s : State) : Host.Outcome State Fault Refusal := jumpRelative (zeroFlag s) e8 s

end Sys2Proof.Machine
end

