-- ==== Sys2Proof/Machine/Load.lean ====
section
/-! DEFINITION. The 8-bit move block, opcodes 0x40 to 0x7F (R110 to R114): one shared handler, one meaning per opcode. -/
namespace Sys2Proof.Machine

/-- The block's one handler (R114): `WriteOp(y, ReadOp(z))`, the read before the write (R79). No flag changes. -/
def move (dst src : Reg8) (s : State) : Host.Outcome State Fault Refusal :=
  finish <|
    match readOp src s with
    | .error r => .error r
    | .ok v => writeOp dst v s

/-- `LD B,B` (R110). -/
def execLdBB (s : State) : Host.Outcome State Fault Refusal := move .b .b s

/-- `LD B,C` (R110). -/
def execLdBC (s : State) : Host.Outcome State Fault Refusal := move .b .c s

/-- `LD B,D` (R110). -/
def execLdBD (s : State) : Host.Outcome State Fault Refusal := move .b .d s

/-- `LD B,E` (R110). -/
def execLdBE (s : State) : Host.Outcome State Fault Refusal := move .b .e s

/-- `LD B,H` (R110). -/
def execLdBH (s : State) : Host.Outcome State Fault Refusal := move .b .h s

/-- `LD B,L` (R110). -/
def execLdBL (s : State) : Host.Outcome State Fault Refusal := move .b .l s

/-- `LD B,(HL)` (R111). -/
def execLdBMhl (s : State) : Host.Outcome State Fault Refusal := move .b .mhl s

/-- `LD B,A` (R110). -/
def execLdBA (s : State) : Host.Outcome State Fault Refusal := move .b .a s

/-- `LD C,B` (R110). -/
def execLdCB (s : State) : Host.Outcome State Fault Refusal := move .c .b s

/-- `LD C,C` (R110). -/
def execLdCC (s : State) : Host.Outcome State Fault Refusal := move .c .c s

/-- `LD C,D` (R110). -/
def execLdCD (s : State) : Host.Outcome State Fault Refusal := move .c .d s

/-- `LD C,E` (R110). -/
def execLdCE (s : State) : Host.Outcome State Fault Refusal := move .c .e s

/-- `LD C,H` (R110). -/
def execLdCH (s : State) : Host.Outcome State Fault Refusal := move .c .h s

/-- `LD C,L` (R110). -/
def execLdCL (s : State) : Host.Outcome State Fault Refusal := move .c .l s

/-- `LD C,(HL)` (R111). -/
def execLdCMhl (s : State) : Host.Outcome State Fault Refusal := move .c .mhl s

/-- `LD C,A` (R110). -/
def execLdCA (s : State) : Host.Outcome State Fault Refusal := move .c .a s

/-- `LD D,B` (R110). -/
def execLdDB (s : State) : Host.Outcome State Fault Refusal := move .d .b s

/-- `LD D,C` (R110). -/
def execLdDC (s : State) : Host.Outcome State Fault Refusal := move .d .c s

/-- `LD D,D` (R110). -/
def execLdDD (s : State) : Host.Outcome State Fault Refusal := move .d .d s

/-- `LD D,E` (R110). -/
def execLdDE (s : State) : Host.Outcome State Fault Refusal := move .d .e s

/-- `LD D,H` (R110). -/
def execLdDH (s : State) : Host.Outcome State Fault Refusal := move .d .h s

/-- `LD D,L` (R110). -/
def execLdDL (s : State) : Host.Outcome State Fault Refusal := move .d .l s

/-- `LD D,(HL)` (R111). -/
def execLdDMhl (s : State) : Host.Outcome State Fault Refusal := move .d .mhl s

/-- `LD D,A` (R110). -/
def execLdDA (s : State) : Host.Outcome State Fault Refusal := move .d .a s

/-- `LD E,B` (R110). -/
def execLdEB (s : State) : Host.Outcome State Fault Refusal := move .e .b s

/-- `LD E,C` (R110). -/
def execLdEC (s : State) : Host.Outcome State Fault Refusal := move .e .c s

/-- `LD E,D` (R110). -/
def execLdED (s : State) : Host.Outcome State Fault Refusal := move .e .d s

/-- `LD E,E` (R110). -/
def execLdEE (s : State) : Host.Outcome State Fault Refusal := move .e .e s

/-- `LD E,H` (R110). -/
def execLdEH (s : State) : Host.Outcome State Fault Refusal := move .e .h s

/-- `LD E,L` (R110). -/
def execLdEL (s : State) : Host.Outcome State Fault Refusal := move .e .l s

/-- `LD E,(HL)` (R111). -/
def execLdEMhl (s : State) : Host.Outcome State Fault Refusal := move .e .mhl s

/-- `LD E,A` (R110). -/
def execLdEA (s : State) : Host.Outcome State Fault Refusal := move .e .a s

/-- `LD H,B` (R110). -/
def execLdHB (s : State) : Host.Outcome State Fault Refusal := move .h .b s

/-- `LD H,C` (R110). -/
def execLdHC (s : State) : Host.Outcome State Fault Refusal := move .h .c s

/-- `LD H,D` (R110). -/
def execLdHD (s : State) : Host.Outcome State Fault Refusal := move .h .d s

/-- `LD H,E` (R110). -/
def execLdHE (s : State) : Host.Outcome State Fault Refusal := move .h .e s

/-- `LD H,H` (R110). -/
def execLdHH (s : State) : Host.Outcome State Fault Refusal := move .h .h s

/-- `LD H,L` (R110). -/
def execLdHL (s : State) : Host.Outcome State Fault Refusal := move .h .l s

/-- `LD H,(HL)` (R111). -/
def execLdHMhl (s : State) : Host.Outcome State Fault Refusal := move .h .mhl s

/-- `LD H,A` (R110). -/
def execLdHA (s : State) : Host.Outcome State Fault Refusal := move .h .a s

/-- `LD L,B` (R110). -/
def execLdLB (s : State) : Host.Outcome State Fault Refusal := move .l .b s

/-- `LD L,C` (R110). -/
def execLdLC (s : State) : Host.Outcome State Fault Refusal := move .l .c s

/-- `LD L,D` (R110). -/
def execLdLD (s : State) : Host.Outcome State Fault Refusal := move .l .d s

/-- `LD L,E` (R110). -/
def execLdLE (s : State) : Host.Outcome State Fault Refusal := move .l .e s

/-- `LD L,H` (R110). -/
def execLdLH (s : State) : Host.Outcome State Fault Refusal := move .l .h s

/-- `LD L,L` (R110). -/
def execLdLL (s : State) : Host.Outcome State Fault Refusal := move .l .l s

/-- `LD L,(HL)` (R111). -/
def execLdLMhl (s : State) : Host.Outcome State Fault Refusal := move .l .mhl s

/-- `LD L,A` (R110). -/
def execLdLA (s : State) : Host.Outcome State Fault Refusal := move .l .a s

/-- `LD (HL),B` (R112). -/
def execLdMhlB (s : State) : Host.Outcome State Fault Refusal := move .mhl .b s

/-- `LD (HL),C` (R112). -/
def execLdMhlC (s : State) : Host.Outcome State Fault Refusal := move .mhl .c s

/-- `LD (HL),D` (R112). -/
def execLdMhlD (s : State) : Host.Outcome State Fault Refusal := move .mhl .d s

/-- `LD (HL),E` (R112). -/
def execLdMhlE (s : State) : Host.Outcome State Fault Refusal := move .mhl .e s

/-- `LD (HL),H` (R112). -/
def execLdMhlH (s : State) : Host.Outcome State Fault Refusal := move .mhl .h s

/-- `LD (HL),L` (R112). -/
def execLdMhlL (s : State) : Host.Outcome State Fault Refusal := move .mhl .l s

/-- `LD (HL),(HL)` (R113). -/
def execLdMhlMhl (s : State) : Host.Outcome State Fault Refusal := move .mhl .mhl s

/-- `LD (HL),A` (R112). -/
def execLdMhlA (s : State) : Host.Outcome State Fault Refusal := move .mhl .a s

/-- `LD A,B` (R110). -/
def execLdAB (s : State) : Host.Outcome State Fault Refusal := move .a .b s

/-- `LD A,C` (R110). -/
def execLdAC (s : State) : Host.Outcome State Fault Refusal := move .a .c s

/-- `LD A,D` (R110). -/
def execLdAD (s : State) : Host.Outcome State Fault Refusal := move .a .d s

/-- `LD A,E` (R110). -/
def execLdAE (s : State) : Host.Outcome State Fault Refusal := move .a .e s

/-- `LD A,H` (R110). -/
def execLdAH (s : State) : Host.Outcome State Fault Refusal := move .a .h s

/-- `LD A,L` (R110). -/
def execLdAL (s : State) : Host.Outcome State Fault Refusal := move .a .l s

/-- `LD A,(HL)` (R111). -/
def execLdAMhl (s : State) : Host.Outcome State Fault Refusal := move .a .mhl s

/-- `LD A,A` (R110). -/
def execLdAA (s : State) : Host.Outcome State Fault Refusal := move .a .a s

end Sys2Proof.Machine
end

