-- ==== Sys2Proof/Machine/System.lean ====
section
/-! DEFINITION. `STOP` (43_system.md R150) and the opcode bytes with no handler (30_encoding.md R97). -/
namespace Sys2Proof.Machine

/-- `STOP` (R150): the engine enters HALTED and nothing else changes; `pc` stays one past the opcode. -/
def execStop (s : State) : Host.Outcome State Fault Refusal := finish (.ok (setRunState s .halted))

/-- An opcode byte with no handler (R97, R164): the fault reports the byte and the address it was fetched from, which is
one before `pc`, since the opcode fetch has advanced `pc` by one (R104). -/
def execUnimplemented (opcode : Byte) (s : State) : Host.Outcome State Fault Refusal :=
  raise (.unimplementedOpcode opcode (s.pc - 1#16))

end Sys2Proof.Machine
end

