-- ==== Sys2Proof/Machine/Run.lean ====
section
/-! DEFINITION. `step()` (30_encoding.md R102 to R107) as a transaction that returns a cycle cost. -/
namespace Sys2Proof.Machine

/-- Run one instruction from RUNNING: fetch, decode, execute, return the cost (R102 stages 2 to 5). -/
def runInstr (s : State) : Host.Outcome (State × Nat) Fault Refusal :=
  match fetchInstr s with
  | .error r => .fault r
  | .ok (i, t) =>
    match exec i t with
    | .next u => .next (u, cycleCost i t)
    | .fault r => .fault r
    | .refused r => .refused r

/-- The transaction `step()` (R102, R107, R198): a next state and its cycle cost, a fault report, or, in FAULTED, nothing
to call. In HALTED stage 1 alone is performed (R151). -/
def stepCosted (s : State) : Host.Outcome (State × Nat) Fault Refusal :=
  match s.runState with
  | .running => runInstr (interruptCheck s)
  | .halted => .next (interruptCheck s, haltedCost)
  | .faulted => .refused .stepInFaulted

end Sys2Proof.Machine
end

