-- ==== Sys2Proof/Machine/Step.lean ====
section
/-! DEFINITION. The step function: `step()` (Machine/Run.lean) without the cycle cost it returns; and how a test places an
instruction. -/
namespace Sys2Proof.Machine

/-- One step of the machine: `step()` without the cost it returns (R202). -/
def step (s : State) : Host.Outcome State Fault Refusal :=
  match stepCosted s with
  | .next (t, _) => .next t
  | .fault r => .fault r
  | .refused r => .refused r

/-- The state in which the next step fetches and runs the table row's instruction: its bytes stand in the cartridge at
`pc`, and the engine is RUNNING (notes/assumptions/3.md). -/
def State.withFetchWord (s : State) (nbits w : Nat) : State :=
  { s with
    cart := patchCart s.cart (programAddress s).toNat (tableBytes nbits w)
    pc := programAddress s
    runState := .running }

end Sys2Proof.Machine
end

