-- ==== Sys2Proof/Machine/Facade.lean ====
section
/-! DEFINITION. The host interface (70_reset_and_hazards.md R193, R194, R198): `load_cartridge` and `step` as atomic
transactions on the engine. `construct()` is `State.construct`. -/
namespace Sys2Proof.Machine

/-- `load_cartridge(bytes)` (R193): replaces `CART`, sets `pc` to 0x0100 and leaves every other state alone. Always
succeeds in RUNNING and HALTED (R194, R151); in FAULTED it cannot be called (R166). -/
def loadCartridge (bytes : List Byte) (s : State) : Host.Outcome State Fault Refusal :=
  match s.runState with
  | .running | .halted => .next { s with cart := bytes, pc := Config.entryPoint }
  | .faulted => .refused .loadInFaulted

/-- What the host can do to a constructed engine (R198). -/
inductive HostCall where
  | loadCartridge (bytes : List Byte)
  | step
  deriving DecidableEq, Repr

/-- What a transaction gives back to the host (R198). -/
inductive Report where
  | loaded
  | cost (cycles : Nat)
  | faulted (r : Fault)
  | refused (r : Refusal)
  deriving DecidableEq, Repr

/-- One transaction: the engine afterwards and what the host is told. A fault leaves the engine FAULTED and the
rest of it unspecified (R166); a call that is refused leaves it as it was. -/
def transact (call : HostCall) (s : State) : State × Report :=
  match call with
  | .loadCartridge bytes =>
    match loadCartridge bytes s with
    | .next t => (t, .loaded)
    | .fault r => (enterFaulted s, .faulted r)
    | .refused r => (s, .refused r)
  | .step =>
    match stepCosted s with
    | .next (t, n) => (t, .cost n)
    | .fault r => (enterFaulted s, .faulted r)
    | .refused r => (s, .refused r)

/-- The engine after a sequence of transactions, one at a time (R19). -/
def transactAll : List HostCall → State → State
  | [], s => s
  | call :: calls, s => transactAll calls (transact call s).1

end Sys2Proof.Machine
end

