-- ==== Sys2Proof/Safety.lean ====
section
/-! DEFINITION. What counts as a good state and a safe run. -/
namespace Sys2Proof.Machine

/-- The invariant of the machine: the Work RAM is in its canonical form, bits 3 to 0 of F are zero (R28), and the bank
selectors are at least 1 (R35). -/
structure State.Inv (s : State) : Prop where
  work_wf : Memory.wf s.work
  flags_low : s.slots.f.extractLsb' 0 4 = 0#4
  workBank_pos : 1 ≤ s.workBank
  romBank_pos : 1 ≤ s.romBank

/-- A launch state (R195): a constructed machine with any `INIT_WORK` in canonical form, after one `load_cartridge`. -/
def State.IsLaunch (s : State) : Prop :=
  ∃ initWork bytes, Memory.wf initWork ∧ loadCartridge bytes (State.construct initWork) = .next s

/-- A run of `k` steps that meets no fault and no refusal. -/
def SafeRun (k : Nat) (s : State) : Prop := ∃ t : State, Sys2Proof.core.run k s = .next t

/-- The normal end of a run (R153): HALTED within `k` steps. -/
def EndsNormally (k : Nat) (s : State) : Prop :=
  ∃ t : State, Sys2Proof.core.run k s = .next t ∧ t.runState = .halted

end Sys2Proof.Machine
end

