-- ==== Sys2Proof/Certificates/Slice0/Obligations.lean ====
section
/-! DEFINITION. The statements for the provers, from the numbered rules of the spec. "The model's choice" in a docstring
names what is not the spec's. -/

open Sys2Proof Sys2Proof.Machine

/-! ## Registers, pairs and flags (10_state.md) -/

/-- R21: the single-slot ports. A read gives what was last written, and a write replaces one slot and no other state. -/
def Obligations.SlotWriteReplacesOneSlot : Prop :=
  ∀ (s : State) (r : Slot) (v : Byte),
    (∀ q : Slot, getSlot (setSlot s r v) q = if q = r then v else getSlot s q) ∧
    setSlot s r v = { s with slots := (setSlot s r v).slots }

/-- R22 to R24: the pair ports compose and decompose two slots, and a pair reads back what was written to it. -/
def Obligations.PairPortsComposeAndRoundTrip : Prop :=
  (∀ s : State,
    (getPair s .bc).toNat = s.slots.b.toNat * 256 + s.slots.c.toNat ∧
    (getPair s .de).toNat = s.slots.d.toNat * 256 + s.slots.e.toNat ∧
    (getPair s .hl).toNat = s.slots.h.toNat * 256 + s.slots.l.toNat ∧
    (getPair s .af).toNat = s.slots.a.toNat * 256 + s.slots.f.toNat) ∧
  (∀ (s : State) (p : Pair) (v : Word),
    getPair (setPair s p v) p = v ∧
    (getSlot (setPair s p v) p.high).toNat = v.toNat / 256 ∧
    (getSlot (setPair s p v) p.low).toNat = v.toNat % 256 ∧
    (∀ q : Slot, q ≠ p.high → q ≠ p.low → getSlot (setPair s p v) q = getSlot s q) ∧
    setPair s p v = { s with slots := (setPair s p v).slots })

/-- R26, R27 and the `SetFlags` of R13: Z, N, H, C stand in bits 7 to 4, bits 3 to 0 are zero, the two queries read bits 7
and 4, and nothing but slot F is written. -/
def Obligations.SetFlagsWritesTheFlagByte : Prop :=
  ∀ (s : State) (x : Flags),
    (setFlags s x).slots.f.toNat =
      (if x.z then 128 else 0) + (if x.n then 64 else 0) + (if x.h then 32 else 0) + (if x.c then 16 else 0) ∧
    zeroFlag (setFlags s x) = x.z ∧ carryFlag (setFlags s x) = x.c ∧
    setFlags s x = { s with slots := { s.slots with f := (setFlags s x).slots.f } }

/-! ## The address map and the accessors (20_memory.md) -/

/-- R53: the mapping function, row by row. The twelve ranges are disjoint and cover all addresses, so these clauses fix
the region and the offset of every address under every selector value. -/
def Obligations.MapFollowsTheRegionTable : Prop :=
  ∀ (a : Word) (workBank romBank : Nat) (videoBank : Bool),
    match mapAddress a workBank romBank videoBank with
    | .romFixed o => a.toNat ≤ 0x3FFF ∧ o = a.toNat
    | .romSwitch o => 0x4000 ≤ a.toNat ∧ a.toNat ≤ 0x7FFF ∧ o = a.toNat + (romBank - 1) * 0x4000
    | .videoRam o =>
      0x8000 ≤ a.toNat ∧ a.toNat ≤ 0x9FFF ∧ a.toNat = o + (if videoBank then 0x8000 else 0x6000)
    | .externalRam o => 0xA000 ≤ a.toNat ∧ a.toNat ≤ 0xBFFF ∧ a.toNat = 0xA000 + o
    | .workFixed o => 0xC000 ≤ a.toNat ∧ a.toNat ≤ 0xCFFF ∧ a.toNat = 0xC000 + o
    | .workSwitch o => 0xD000 ≤ a.toNat ∧ a.toNat ≤ 0xDFFF ∧ a.toNat + workBank * 0x1000 = 0xD000 + o
    | .illegalEcho => 0xE000 ≤ a.toNat ∧ a.toNat ≤ 0xFDFF
    | .oam o => 0xFE00 ≤ a.toNat ∧ a.toNat ≤ 0xFE9F ∧ a.toNat = 0xFE00 + o
    | .illegalGap => 0xFEA0 ≤ a.toNat ∧ a.toNat ≤ 0xFEFF
    | .io o => 0xFF00 ≤ a.toNat ∧ a.toNat ≤ 0xFF7F ∧ a.toNat = 0xFF00 + o
    | .highRam o => 0xFF80 ≤ a.toNat ∧ a.toNat ≤ 0xFFFE ∧ a.toNat = 0xFF80 + o
    | .interruptEnable => a.toNat = 0xFFFF

/-- R54: the ROM properties. -/
def Obligations.RomOffsetsFollowTheBank : Prop :=
  (∀ (a : Word) (workBank romBank : Nat) (videoBank : Bool), a.toNat ≤ 0x3FFF →
    mapAddress a workBank romBank videoBank = .romFixed a.toNat) ∧
  (∀ (a : Word) (workBank romBank d : Nat) (videoBank : Bool), 0x4000 ≤ a.toNat → a.toNat ≤ 0x7FFF → 1 ≤ romBank →
    ∃ o, mapAddress a workBank romBank videoBank = .romSwitch o ∧ o = a.toNat + (romBank - 1) * 0x4000 ∧
      mapAddress a workBank (romBank + d) videoBank = .romSwitch (o + d * 0x4000)) ∧
  (∀ (s : State) (a : Word) (v : Byte), s.romBank = 1 → a.toNat ≤ 0x7FFF → s.cart[a.toNat]? = some v →
    readByte s a = .ok v) ∧
  (∀ (s : State) (a : Word) (v : Byte), a.toNat ≤ 0x3FFF → s.cart[a.toNat]? = some v → readByte s a = .ok v) ∧
  (∀ (s : State) (a : Word) (v : Byte), 0x4000 ≤ a.toNat → a.toNat ≤ 0x7FFF → 1 ≤ s.romBank →
    s.cart[a.toNat + (s.romBank - 1) * 0x4000]? = some v → readByte s a = .ok v)

/-- R55: the Work RAM properties. -/
def Obligations.WorkRamOffsetsNeverAlias : Prop :=
  (∀ (a : Word) (workBank romBank : Nat) (videoBank : Bool), 0xC000 ≤ a.toNat → a.toNat ≤ 0xCFFF →
    mapAddress a workBank romBank videoBank = .workFixed (a.toNat - 0xC000)) ∧
  (∀ (a : Word) (workBank romBank : Nat) (videoBank : Bool), 0xD000 ≤ a.toNat → a.toNat ≤ 0xDFFF → 1 ≤ workBank →
    mapAddress a workBank romBank videoBank = .workSwitch (a.toNat - 0xD000 + workBank * 0x1000)) ∧
  (∀ (a : Word) (romBank : Nat) (videoBank : Bool), 0xC000 ≤ a.toNat → a.toNat ≤ 0xDFFF →
    mapAddress a 1 romBank videoBank = .workFixed (a.toNat - 0xC000) ∨
    mapAddress a 1 romBank videoBank = .workSwitch (a.toNat - 0xC000)) ∧
  (∀ (a b : Word) (o : Nat) (workBank romBank : Nat) (videoBank : Bool), 1 ≤ workBank →
    (mapAddress a workBank romBank videoBank = .workFixed o ∨ mapAddress a workBank romBank videoBank = .workSwitch o) →
    (mapAddress b workBank romBank videoBank = .workFixed o ∨ mapAddress b workBank romBank videoBank = .workSwitch o) →
    a = b)

/-- R78: the addresses at which an access can succeed, for reads, fetches and writes. -/
def Obligations.AccessSucceedsExactlyWhere : Prop :=
  ∀ (s : State) (a : Word),
    ((∃ v, readByte s a = .ok v) ↔
      (a.toNat ≤ 0x3FFF ∧ a.toNat < s.cart.length) ∨
      (0x4000 ≤ a.toNat ∧ a.toNat ≤ 0x7FFF ∧ a.toNat + (s.romBank - 1) * 0x4000 < s.cart.length) ∨
      (0xC000 ≤ a.toNat ∧ a.toNat ≤ 0xCFFF) ∨
      (0xD000 ≤ a.toNat ∧ a.toNat ≤ 0xDFFF ∧ a.toNat - 0xD000 + s.workBank * 0x1000 < 262144)) ∧
    ((∃ v, readByte s s.pc = .ok v) ↔ ∃ p, fetchByte s = .ok p) ∧
    (∀ v : Byte, (∃ t, writeByte s a v = .ok t) ↔
      (0xC000 ≤ a.toNat ∧ a.toNat ≤ 0xCFFF) ∨
      (0xD000 ≤ a.toNat ∧ a.toNat ≤ 0xDFFF ∧ a.toNat - 0xD000 + s.workBank * 0x1000 < 262144))

/-- R59 and R70: a write is read back, every other address reads as before, every byte of `work` but the one the address
maps to, visible through a bank selector or not, is as before, nothing but `work` changes, and the canonical form of `work`
(the model's, notes/assumptions/1.md) is kept. The invariant rules out a `workBank` of 0, under which two windows would overlap. -/
def Obligations.WriteIsReadBackAndNothingElseMoves : Prop :=
  ∀ (s t : State) (a : Word) (v : Byte), s.Inv → writeByte s a v = .ok t →
    readByte t a = .ok v ∧ (∀ b : Word, b ≠ a → readByte t b = readByte s b) ∧
    (∀ o : Nat, region s a ≠ .workFixed o → region s a ≠ .workSwitch o → Memory.read t.work o = Memory.read s.work o) ∧
    t = { s with work := t.work } ∧ Memory.wf t.work

/-- R63: the illegal ranges fault on reads, writes and fetches alike, in RUNNING a fetch there is the step's fault. -/
def Obligations.IllegalAddressesAlwaysFault : Prop :=
  ∀ (s : State) (a : Word) (v : Byte),
    (0xE000 ≤ a.toNat ∧ a.toNat ≤ 0xFDFF) ∨ (0xFEA0 ≤ a.toNat ∧ a.toNat ≤ 0xFEFF) →
    readByte s a = .error (.illegalAddress a) ∧ writeByte s a v = .error (.illegalAddress a) ∧
    (s.runState = .running → s.pc = a → step s = .fault (.illegalAddress a))

/-- R162: every read, write and fetch of a region without storage faults, with the address and the region kind. -/
def Obligations.UnwiredRegionsAlwaysFault : Prop :=
  ∀ (s : State) (a : Word) (v : Byte) (kind : RegionKind),
    (0x8000 ≤ a.toNat ∧ a.toNat ≤ 0x9FFF ∧ kind = .videoRam) ∨
    (0xA000 ≤ a.toNat ∧ a.toNat ≤ 0xBFFF ∧ kind = .externalRam) ∨
    (0xFE00 ≤ a.toNat ∧ a.toNat ≤ 0xFE9F ∧ kind = .oam) ∨
    (0xFF00 ≤ a.toNat ∧ a.toNat ≤ 0xFF7F ∧ kind = .io) ∨
    (0xFF80 ≤ a.toNat ∧ a.toNat ≤ 0xFFFE ∧ kind = .highRam) ∨
    (a.toNat = 0xFFFF ∧ kind = .interruptEnable) →
    readByte s a = .error (.unimplementedRegion a kind) ∧ writeByte s a v = .error (.unimplementedRegion a kind) ∧
    (s.runState = .running → s.pc = a → step s = .fault (.unimplementedRegion a kind))

/-- R163: every write to ROM faults whatever `CART_LEN` and `rom_bank` are, and only `LD (HL),r` (0x70 to 0x75, 0x77),
`LD (HL),(HL)` (0x76) and `INC (HL)` (0x34) raise that fault, at the address HL. -/
def Obligations.RomWriteFaultsAndOnlyStoresRaiseIt : Prop :=
  (∀ (s : State) (a : Word) (v : Byte), a.toNat ≤ 0x7FFF → writeByte s a v = .error (.readOnlyViolation a)) ∧
  (∀ (s : State) (a : Word), step s = .fault (.readOnlyViolation a) →
    a.toNat = s.slots.h.toNat * 256 + s.slots.l.toNat ∧ a.toNat ≤ 0x7FFF ∧
    ∃ op : Byte, readByte s s.pc = .ok op ∧ (op = 0x34#8 ∨ (0x70 ≤ op.toNat ∧ op.toNat ≤ 0x77)))

/-- R62: an offset outside its backing store faults, with the address and the offset, for reads and writes. -/
def Obligations.OffsetsOutsideTheStoreFault : Prop :=
  (∀ (s : State) (a : Word), a.toNat ≤ 0x3FFF → s.cart.length ≤ a.toNat →
    readByte s a = .error (.backingOutOfRange a a.toNat)) ∧
  (∀ (s : State) (a : Word) (o : Nat), 0x4000 ≤ a.toNat → a.toNat ≤ 0x7FFF → o = a.toNat + (s.romBank - 1) * 0x4000 →
    s.cart.length ≤ o → readByte s a = .error (.backingOutOfRange a o)) ∧
  (∀ (s : State) (a : Word) (v : Byte) (o : Nat), 0xD000 ≤ a.toNat → a.toNat ≤ 0xDFFF →
    o = a.toNat - 0xD000 + s.workBank * 0x1000 → 262144 ≤ o →
    readByte s a = .error (.backingOutOfRange a o) ∧ writeByte s a v = .error (.backingOutOfRange a o))

/-- R64: the bytes of a `read_sized<N>`, the check before it, and the fault of the first byte that cannot be read. -/
def Obligations.SizedReadStaysInOneRegion : Prop :=
  ∀ (s : State) (a : Word) (n : Nat), 1 ≤ n →
    (0xFFFF < a.toNat + n - 1 ∨ (region s a).kind ≠ (region s (a + BitVec.ofNat 16 (n - 1))).kind →
      readSized s a n = .error (.crossRegionRead a n)) ∧
    (a.toNat + n - 1 ≤ 0xFFFF → (region s a).kind = (region s (a + BitVec.ofNat 16 (n - 1))).kind →
      (∀ bs, readSized s a n = .ok bs ↔
        bs.length = n ∧ ∀ i v, bs[i]? = some v → readByte s (a + BitVec.ofNat 16 i) = .ok v) ∧
      (∀ r, readSized s a n = .error r ↔
        ∃ i, i < n ∧ readByte s (a + BitVec.ofNat 16 i) = .error r ∧
          ∀ j, j < i → ∃ v, readByte s (a + BitVec.ofNat 16 j) = .ok v))

/-- R66: the two-byte operand read is little-endian. -/
def Obligations.WordReadIsLittleEndian : Prop :=
  ∀ (s : State) (a : Word) (lo hi : Byte),
    readByte s a = .ok lo → readByte s (a + 1#16) = .ok hi → a.toNat ≠ 0xFFFF →
    (region s a).kind = (region s (a + 1#16)).kind →
    ∃ w, readWord s a = .ok w ∧ w.toNat = lo.toNat + 256 * hi.toNat

/-- R65: `FetchByte()` reads at `pc` as `read_byte` does and then adds one to `pc`, modulo 2^16; a fault of the read is the
fault of the fetch. -/
def Obligations.FetchByteReadsAndAdvances : Prop :=
  ∀ s : State,
    (∀ b, readByte s s.pc = .ok b →
      fetchByte s = .ok (b, { s with pc := BitVec.ofNat 16 ((s.pc.toNat + 1) % 65536) })) ∧
    (∀ r, readByte s s.pc = .error r → fetchByte s = .error r)

/-- R74: a byte stored into Work RAM by `LD (HL),r` is what a fetch from that address gives, starting with the next
instruction, and so is the byte `INC (HL)` stores. -/
def Obligations.StoredByteIsFetchedNext : Prop :=
  (∀ (s t : State) (z : Reg8) (src : Slot), s.Inv → operandSlot z = some src →
    exec (Instr.ld .mhl z) s = .next t → t.pc = getPair s .hl →
    fetchByte t = .ok (getSlot s src, { t with pc := t.pc + 1#16 })) ∧
  (∀ (s t : State) (v : Byte), s.Inv → readByte s (getPair s .hl) = .ok v →
    exec .incMhl s = .next t → t.pc = getPair s .hl →
    fetchByte t = .ok (v + 1#8, { t with pc := t.pc + 1#16 }))

/-! ## Decoding and encoding (30_encoding.md) -/

/-- R90, R91, R95, R96: decoding the bytes of a well-formed instruction, whatever follows them, gives the instruction
back with every operand, and leaves what follows. -/
def Obligations.DecodeInvertsEncode : Prop :=
  ∀ (i : Instr) (rest : List Byte), i.wf = true → decode (encode i ++ rest) = .ok (i, rest)

/-- R95, R99: every byte sequence that decodes is the encoding of the one well-formed instruction it decodes to. -/
def Obligations.EncodeInvertsDecode : Prop :=
  ∀ (bytes rest : List Byte) (i : Instr), decode bytes = .ok (i, rest) → i.wf = true ∧ encode i ++ rest = bytes

/-- R95, R98: the opcode byte alone tells the instruction's length, 3 for 0xC3, 2 for 0x18, 0x20 and 0x28, 1 for every
other byte; and a sequence of at least that many bytes decodes. -/
def Obligations.OpcodeAloneTellsTheLength : Prop :=
  ∀ (op : Byte) (tail : List Byte),
    let length := if op = 0xC3#8 then 3 else if op = 0x18#8 ∨ op = 0x20#8 ∨ op = 0x28#8 then 2 else 1
    (length ≤ tail.length + 1 → ∃ i, decode (op :: tail) = .ok (i, (op :: tail).drop length) ∧ i.opcode = op) ∧
    (tail.length + 1 < length → decode (op :: tail) = .error (.operandMissing op))

/-- R97: exactly the 155 listed byte values decode to the default row, whatever follows them. -/
def Obligations.ExactlyTheListedBytesAreUnimplemented : Prop :=
  ∀ (op : Byte) (tail : List Byte),
    decode (op :: tail) = .ok (.unimplemented op, tail) ↔
      (op.toNat ≤ 0x03 ∨ (0x05 ≤ op.toNat ∧ op.toNat ≤ 0x0B) ∨ (0x0D ≤ op.toNat ∧ op.toNat ≤ 0x0F) ∨
      (0x11 ≤ op.toNat ∧ op.toNat ≤ 0x13) ∨ (0x15 ≤ op.toNat ∧ op.toNat ≤ 0x17) ∨
      (0x19 ≤ op.toNat ∧ op.toNat ≤ 0x1B) ∨ (0x1D ≤ op.toNat ∧ op.toNat ≤ 0x1F) ∨
      (0x21 ≤ op.toNat ∧ op.toNat ≤ 0x23) ∨ (0x25 ≤ op.toNat ∧ op.toNat ≤ 0x27) ∨
      (0x29 ≤ op.toNat ∧ op.toNat ≤ 0x2B) ∨ (0x2D ≤ op.toNat ∧ op.toNat ≤ 0x33) ∨
      (0x35 ≤ op.toNat ∧ op.toNat ≤ 0x3B) ∨ (0x3D ≤ op.toNat ∧ op.toNat ≤ 0x3F) ∨
      (0x88 ≤ op.toNat ∧ op.toNat ≤ 0x8F) ∨ (0x98 ≤ op.toNat ∧ op.toNat ≤ 0xA7) ∨
      (0xB0 ≤ op.toNat ∧ op.toNat ≤ 0xC2) ∨ 0xC4 ≤ op.toNat)

/-- R91, R96: bytes written out from the encodings decode to the instructions they stand for. -/
def Obligations.WrittenOutBytesDecode : Prop :=
  decode [0b01101011] = .ok (.ldLE, []) ∧
  decode [0b01110110] = .ok (.ldMhlMhl, []) ∧
  decode [0b00110100] = .ok (.incMhl, []) ∧
  decode [0b10000110] = .ok (.addAMhl, []) ∧
  decode [0b10010001] = .ok (.subAC, []) ∧
  decode [0b10101101] = .ok (.xorAL, []) ∧
  decode [0b00100000, 0xFD] = .ok (.jrNzE8 0xFD, []) ∧
  decode [0b11000011, 0x50, 0x01] = .ok (.jpA16 0x0150, []) ∧
  decode [0b00010000] = .ok (.stop, []) ∧
  decode [0xCB, 0x37] = .ok (.unimplemented 0xCB, [0x37])

/-- R93: the eight values of a register field; 6 is the memory operand and never slot F. -/
def Obligations.RegisterFieldSelects : Prop :=
  operandSlot (Reg8.ofCode 0) = some .b ∧ operandSlot (Reg8.ofCode 1) = some .c ∧
  operandSlot (Reg8.ofCode 2) = some .d ∧ operandSlot (Reg8.ofCode 3) = some .e ∧
  operandSlot (Reg8.ofCode 4) = some .h ∧ operandSlot (Reg8.ofCode 5) = some .l ∧
  Reg8.ofCode 6 = .mhl ∧ operandSlot .mhl = none ∧ operandSlot (Reg8.ofCode 7) = some .a ∧
  (∀ s : State, (hlAddress s).toNat = s.slots.h.toNat * 256 + s.slots.l.toNat)

/-! ## The move block (40_load_move.md) -/

/-- R110: `LD r,r'`, the 49 register forms: encoding, effect (nothing but the destination slot changes), cost. -/
def Obligations.LdSlotFromSlot : Prop :=
  ∀ (y z : BitVec 3) (dst src : Slot),
    operandSlot (Reg8.ofCode y) = some dst → operandSlot (Reg8.ofCode z) = some src →
    (Instr.ld (Reg8.ofCode y) (Reg8.ofCode z)).opcode = 0x40#8 ||| (y.setWidth 8 <<< 3) ||| z.setWidth 8 ∧
    ∀ s : State,
      exec (Instr.ld (Reg8.ofCode y) (Reg8.ofCode z)) s = .next (setSlot s dst (getSlot s src)) ∧
      cycleCost (Instr.ld (Reg8.ofCode y) (Reg8.ofCode z)) s = 4

/-- R111: `LD r,(HL)`, the 7 forms: the byte at the old HL goes to the slot and nothing else changes; a fault of the read is
the fault of the instruction. -/
def Obligations.LdSlotFromMemory : Prop :=
  ∀ (y : BitVec 3) (dst : Slot), operandSlot (Reg8.ofCode y) = some dst →
    (Instr.ld (Reg8.ofCode y) .mhl).opcode = 0x46#8 ||| (y.setWidth 8 <<< 3) ∧
    ∀ s : State,
      (∀ v, readByte s (getPair s .hl) = .ok v →
        exec (Instr.ld (Reg8.ofCode y) .mhl) s = .next (setSlot s dst v)) ∧
      (∀ r, readByte s (getPair s .hl) = .error r → exec (Instr.ld (Reg8.ofCode y) .mhl) s = .fault r) ∧
      cycleCost (Instr.ld (Reg8.ofCode y) .mhl) s = 8

/-- R112: `LD (HL),r`, the 7 forms: where Work RAM stands behind HL the slot is stored there and nothing else changes; a
fault of the write is the fault of the instruction. -/
def Obligations.LdMemoryFromSlot : Prop :=
  ∀ (z : BitVec 3) (src : Slot), operandSlot (Reg8.ofCode z) = some src →
    (Instr.ld .mhl (Reg8.ofCode z)).opcode = 0x70#8 ||| z.setWidth 8 ∧
    ∀ (s : State) (hl : Nat), hl = s.slots.h.toNat * 256 + s.slots.l.toNat → Memory.wf s.work →
      ((0xC000 ≤ hl ∧ hl ≤ 0xCFFF) ∨ (0xD000 ≤ hl ∧ hl ≤ 0xDFFF ∧ hl - 0xD000 + s.workBank * 0x1000 < 262144) →
        ∃ t, exec (Instr.ld .mhl (Reg8.ofCode z)) s = .next t ∧ t = { s with work := t.work } ∧
          readByte t (getPair s .hl) = .ok (getSlot s src)) ∧
      (∀ r, writeByte s (getPair s .hl) (getSlot s src) = .error r →
        exec (Instr.ld .mhl (Reg8.ofCode z)) s = .fault r) ∧
      cycleCost (Instr.ld .mhl (Reg8.ofCode z)) s = 8

/-- R113: `LD (HL),(HL)`: the read comes first; where HL lies in Work RAM storage the instruction completes and no state
at all changes; where HL lies in the cartridge the write faults; every other fault is the read's. -/
def Obligations.LdMemoryFromMemory : Prop :=
  Instr.ldMhlMhl.opcode = 0x76#8 ∧
  ∀ s : State, Memory.wf s.work →
    (∀ v, readByte s (getPair s .hl) = .ok v → 0xC000 ≤ (getPair s .hl).toNat → exec .ldMhlMhl s = .next s) ∧
    (∀ v, readByte s (getPair s .hl) = .ok v → (getPair s .hl).toNat ≤ 0x7FFF →
      exec .ldMhlMhl s = .fault (.readOnlyViolation (getPair s .hl))) ∧
    (∀ r, readByte s (getPair s .hl) = .error r → exec .ldMhlMhl s = .fault r) ∧
    cycleCost .ldMhlMhl s = 8

/-! ## Arithmetic and logic (41_alu.md). The flag byte is written out: Z 128, N 64, H 32, C 16. -/

/-- R127: `INC r`, the 7 forms. C keeps its old value. -/
def Obligations.IncSlot : Prop :=
  ∀ (y : BitVec 3) (r : Slot), operandSlot (Reg8.ofCode y) = some r →
    (Instr.inc (Reg8.ofCode y)).opcode = 0x04#8 ||| (y.setWidth 8 <<< 3) ∧
    ∀ s : State,
      exec (Instr.inc (Reg8.ofCode y)) s =
        .next (setSlot (setSlot s r (BitVec.ofNat 8 (((getSlot s r).toNat + 1) % 256))) .f
          (BitVec.ofNat 8 ((if (getSlot s r).toNat = 255 then 128 else 0) +
            (if (getSlot s r).toNat % 16 = 15 then 32 else 0) + (if s.slots.f.getLsbD 4 then 16 else 0)))) ∧
      cycleCost (Instr.inc (Reg8.ofCode y)) s = 4

/-- R128: `INC (HL)`: where Work RAM stands behind HL the byte there grows by one, modulo 256, F is written, of which C
keeps its old value, and nothing else changes; a fault of the read, or of the write, is the fault of the instruction. -/
def Obligations.IncMemory : Prop :=
  Instr.incMhl.opcode = 0x34#8 ∧
  ∀ (s : State) (hl : Nat), hl = s.slots.h.toNat * 256 + s.slots.l.toNat → Memory.wf s.work →
    ((0xC000 ≤ hl ∧ hl ≤ 0xCFFF) ∨ (0xD000 ≤ hl ∧ hl ≤ 0xDFFF ∧ hl - 0xD000 + s.workBank * 0x1000 < 262144) →
      ∃ (v : Byte) (t : State), readByte s (getPair s .hl) = .ok v ∧ exec .incMhl s = .next t ∧
        readByte t (getPair s .hl) = .ok (BitVec.ofNat 8 ((v.toNat + 1) % 256)) ∧
        t = { s with
          work := t.work
          slots := { s.slots with
            f := BitVec.ofNat 8 ((if v.toNat = 255 then 128 else 0) + (if v.toNat % 16 = 15 then 32 else 0) +
              (if s.slots.f.getLsbD 4 then 16 else 0)) } }) ∧
    (∀ r, readByte s (getPair s .hl) = .error r → exec .incMhl s = .fault r) ∧
    (∀ v r, readByte s (getPair s .hl) = .ok v →
      writeByte s (getPair s .hl) (BitVec.ofNat 8 ((v.toNat + 1) % 256)) = .error r → exec .incMhl s = .fault r) ∧
    cycleCost .incMhl s = 12

/-- R129: `ADD A,r`, the 7 forms. -/
def Obligations.AddSlotToA : Prop :=
  ∀ (z : BitVec 3) (src : Slot), operandSlot (Reg8.ofCode z) = some src →
    (Instr.add (Reg8.ofCode z)).opcode = 0x80#8 ||| z.setWidth 8 ∧
    ∀ (s : State) (a v : Nat), a = s.slots.a.toNat → v = (getSlot s src).toNat →
      exec (Instr.add (Reg8.ofCode z)) s =
        .next { s with slots := { s.slots with
          a := BitVec.ofNat 8 ((a + v) % 256)
          f := BitVec.ofNat 8 ((if (a + v) % 256 = 0 then 128 else 0) + (if 15 < a % 16 + v % 16 then 32 else 0) +
            (if 255 < a + v then 16 else 0)) } } ∧
      cycleCost (Instr.add (Reg8.ofCode z)) s = 4

/-- R130: `ADD A,(HL)`; on a fault of the read nothing is written. -/
def Obligations.AddMemoryToA : Prop :=
  Instr.addAMhl.opcode = 0x86#8 ∧
  ∀ s : State,
    (∀ (a v : Nat) (byte : Byte), readByte s (getPair s .hl) = .ok byte → a = s.slots.a.toNat → v = byte.toNat →
      exec .addAMhl s =
        .next { s with slots := { s.slots with
          a := BitVec.ofNat 8 ((a + v) % 256)
          f := BitVec.ofNat 8 ((if (a + v) % 256 = 0 then 128 else 0) + (if 15 < a % 16 + v % 16 then 32 else 0) +
            (if 255 < a + v then 16 else 0)) } }) ∧
    (∀ r, readByte s (getPair s .hl) = .error r → exec .addAMhl s = .fault r) ∧
    cycleCost .addAMhl s = 8

/-- R131: `SUB A,r`, the 7 forms. -/
def Obligations.SubSlotFromA : Prop :=
  ∀ (z : BitVec 3) (src : Slot), operandSlot (Reg8.ofCode z) = some src →
    (Instr.sub (Reg8.ofCode z)).opcode = 0x90#8 ||| z.setWidth 8 ∧
    ∀ (s : State) (a v : Nat), a = s.slots.a.toNat → v = (getSlot s src).toNat →
      exec (Instr.sub (Reg8.ofCode z)) s =
        .next { s with slots := { s.slots with
          a := BitVec.ofNat 8 ((a + 256 - v) % 256)
          f := BitVec.ofNat 8 ((if a = v then 128 else 0) + 64 + (if a % 16 < v % 16 then 32 else 0) +
            (if a < v then 16 else 0)) } } ∧
      cycleCost (Instr.sub (Reg8.ofCode z)) s = 4

/-- R132: `SUB A,(HL)`; on a fault of the read nothing is written. -/
def Obligations.SubMemoryFromA : Prop :=
  Instr.subAMhl.opcode = 0x96#8 ∧
  ∀ s : State,
    (∀ (a v : Nat) (byte : Byte), readByte s (getPair s .hl) = .ok byte → a = s.slots.a.toNat → v = byte.toNat →
      exec .subAMhl s =
        .next { s with slots := { s.slots with
          a := BitVec.ofNat 8 ((a + 256 - v) % 256)
          f := BitVec.ofNat 8 ((if a = v then 128 else 0) + 64 + (if a % 16 < v % 16 then 32 else 0) +
            (if a < v then 16 else 0)) } }) ∧
    (∀ r, readByte s (getPair s .hl) = .error r → exec .subAMhl s = .fault r) ∧
    cycleCost .subAMhl s = 8

/-- R133: `XOR A,r`, the 7 forms; N, H and C are cleared. -/
def Obligations.XorSlotIntoA : Prop :=
  ∀ (z : BitVec 3) (src : Slot), operandSlot (Reg8.ofCode z) = some src →
    (Instr.xor (Reg8.ofCode z)).opcode = 0xA8#8 ||| z.setWidth 8 ∧
    ∀ s : State,
      exec (Instr.xor (Reg8.ofCode z)) s =
        .next { s with slots := { s.slots with
          a := s.slots.a ^^^ getSlot s src
          f := if s.slots.a = getSlot s src then 0x80#8 else 0x00#8 } } ∧
      cycleCost (Instr.xor (Reg8.ofCode z)) s = 4

/-- R134: `XOR A,(HL)`; on a fault of the read nothing is written. -/
def Obligations.XorMemoryIntoA : Prop :=
  Instr.xorAMhl.opcode = 0xAE#8 ∧
  ∀ s : State,
    (∀ v, readByte s (getPair s .hl) = .ok v →
      exec .xorAMhl s =
        .next { s with slots := { s.slots with
          a := s.slots.a ^^^ v
          f := if s.slots.a = v then 0x80#8 else 0x00#8 } }) ∧
    (∀ r, readByte s (getPair s .hl) = .error r → exec .xorAMhl s = .fault r) ∧
    cycleCost .xorAMhl s = 8

/-! ## Control transfer and STOP (42_control_transfer.md, 43_system.md) -/

/-- R140: `JP a16` sets `pc` to the address and changes nothing else, on any address. -/
def Obligations.JpSetsPc : Prop :=
  ∀ a16 : Word, encode (.jpA16 a16) = [0xC3#8, BitVec.ofNat 8 (a16.toNat % 256), BitVec.ofNat 8 (a16.toNat / 256)] ∧
    ∀ s : State, exec (.jpA16 a16) s = .next { s with pc := a16 } ∧ cycleCost (.jpA16 a16) s = 16

/-- R141 to R143: the relative jumps, from the state in which the displacement byte has been fetched: `JR` is always taken,
`JR NZ` exactly when Z is clear and `JR Z` exactly when Z is set; nothing but `pc` changes; cost 12 taken, 8 not. -/
def Obligations.JrAddsTheDisplacement : Prop :=
  ∀ e8 : Byte,
    encode (.jrE8 e8) = [0x18#8, e8] ∧ encode (.jrNzE8 e8) = [0x20#8, e8] ∧ encode (.jrZE8 e8) = [0x28#8, e8] ∧
    ∀ s : State, ∃ target : Word, (target.toNat : Int) = ((s.pc.toNat : Int) + e8.toInt) % 65536 ∧
      exec (.jrE8 e8) s = .next { s with pc := target } ∧ cycleCost (.jrE8 e8) s = 12 ∧
      (s.slots.f.getLsbD 7 = false →
        exec (.jrNzE8 e8) s = .next { s with pc := target } ∧ cycleCost (.jrNzE8 e8) s = 12 ∧
        exec (.jrZE8 e8) s = .next s ∧ cycleCost (.jrZE8 e8) s = 8) ∧
      (s.slots.f.getLsbD 7 = true →
        exec (.jrNzE8 e8) s = .next s ∧ cycleCost (.jrNzE8 e8) s = 8 ∧
        exec (.jrZE8 e8) s = .next { s with pc := target } ∧ cycleCost (.jrZE8 e8) s = 12)

/-- R144: seen from a whole step, the target of a taken relative jump is the opcode's address plus 2 plus the signed
displacement, modulo 2^16; a jump not taken continues at the opcode's address plus 2. -/
def Obligations.JrTargetFromTheOpcodeAddress : Prop :=
  ∀ (s : State) (op e8 : Byte), s.runState = .running →
    readByte s s.pc = .ok op → readByte s (s.pc + 1#16) = .ok e8 →
    (op = 0x18#8 ∨ (op = 0x20#8 ∧ s.slots.f.getLsbD 7 = false) ∨ (op = 0x28#8 ∧ s.slots.f.getLsbD 7 = true) →
      ∃ target : Word, step s = .next { s with pc := target } ∧
        (target.toNat : Int) = ((s.pc.toNat : Int) + 2 + e8.toInt) % 65536 ∧ -128 ≤ e8.toInt ∧ e8.toInt ≤ 127) ∧
    ((op = 0x20#8 ∧ s.slots.f.getLsbD 7 = true) ∨ (op = 0x28#8 ∧ s.slots.f.getLsbD 7 = false) →
      step s = .next { s with pc := s.pc + 2#16 })

/-- R108, R140: seen from a whole step, `JP` reads its two operand bytes little-endian when they lie in one row of the region
table, and from 0x3FFE, 0x7FFE, 0xCFFE or 0xDFFE it faults before either is read. -/
def Obligations.JpStepReadsOneRegion : Prop :=
  ∀ s : State, s.runState = .running → readByte s s.pc = .ok 0xC3#8 →
    (∀ lo hi, readByte s (s.pc + 1#16) = .ok lo → readByte s (s.pc + 2#16) = .ok hi →
      s.pc ≠ 0x3FFE#16 → s.pc ≠ 0x7FFE#16 → s.pc ≠ 0xCFFE#16 → s.pc ≠ 0xDFFE#16 →
      step s = .next { s with pc := hi ++ lo }) ∧
    (s.pc = 0x3FFE#16 ∨ s.pc = 0x7FFE#16 ∨ s.pc = 0xCFFE#16 ∨ s.pc = 0xDFFE#16 →
      step s = .fault (.crossRegionRead (s.pc + 1#16) 2))

/-- R150: `STOP` enters HALTED and changes nothing else. -/
def Obligations.StopEntersHalted : Prop :=
  encode .stop = [0x10#8] ∧
  ∀ s : State, exec .stop s = .next { s with runState := .halted } ∧ cycleCost .stop s = 4

/-- R164, R97: seen from a whole step, an opcode byte without a handler faults with the byte and the address it was fetched
from. The first clause is the model's: one constructor carries the byte, any byte (notes/assumptions/10.md, a design
choice), and stops on every path, and `exec` computes the address as one before `pc` (notes/assumptions/8.md, deduced). -/
def Obligations.UnimplementedOpcodeFaults : Prop :=
  (∀ (op : Byte) (s : State), exec (.unimplemented op) s = .fault (.unimplementedOpcode op (s.pc - 1#16))) ∧
  (∀ (op : Byte) (s : State), s.runState = .running → readByte s s.pc = .ok op → unimplementedByte op = true →
    step s = .fault (.unimplementedOpcode op s.pc))

/-! ## The step (30_encoding.md R102 to R108, 43_system.md R151) -/

/-- R102: in RUNNING, when the bytes at `pc` decode to a well-formed instruction, the step is `exec` of it (stage 4), and
where that completes the step returns the instruction's cost (stage 5, R106), taken in the state `exec` starts in. That
`exec` starts past the displacement of a relative jump, and after the address of `JP` has been read with `pc` still one past
the opcode, is the model's choice (notes/assumptions/4.md); R104 and R105 let stage 4 do those reads. The operand bytes of
`JP` must lie in one row of the region table. -/
def Obligations.StepRunsTheDecodedInstruction : Prop :=
  ∀ (s : State) (i : Instr), s.runState = .running → i.wf = true →
    (encode i = [i.opcode] → readByte s s.pc = .ok i.opcode →
      step s = exec i { s with pc := s.pc + 1#16 } ∧
      ∀ u, exec i { s with pc := s.pc + 1#16 } = .next u →
        stepCosted s = .next (u, cycleCost i { s with pc := s.pc + 1#16 })) ∧
    (∀ e8, encode i = [i.opcode, e8] → readByte s s.pc = .ok i.opcode → readByte s (s.pc + 1#16) = .ok e8 →
      step s = exec i { s with pc := s.pc + 2#16 } ∧
      ∀ u, exec i { s with pc := s.pc + 2#16 } = .next u →
        stepCosted s = .next (u, cycleCost i { s with pc := s.pc + 2#16 })) ∧
    (∀ lo hi, encode i = [i.opcode, lo, hi] → readByte s s.pc = .ok i.opcode →
      readByte s (s.pc + 1#16) = .ok lo → readByte s (s.pc + 2#16) = .ok hi →
      (region s (s.pc + 1#16)).kind = (region s (s.pc + 2#16)).kind →
      step s = exec i { s with pc := s.pc + 1#16 } ∧
      ∀ u, exec i { s with pc := s.pc + 1#16 } = .next u →
        stepCosted s = .next (u, cycleCost i { s with pc := s.pc + 1#16 }))

/-- R168, R79: the first fault among the opcode fetch, the operand accesses and the instruction's own accesses is the step's
fault; an opcode byte without a handler faults before any operand is read. -/
def Obligations.FirstFaultEndsTheStep : Prop :=
  ∀ s : State, s.runState = .running →
    (∀ r, readByte s s.pc = .error r → step s = .fault r) ∧
    (∀ op r, readByte s s.pc = .ok op → op = 0x18#8 ∨ op = 0x20#8 ∨ op = 0x28#8 → readByte s (s.pc + 1#16) = .error r →
      step s = .fault r) ∧
    (∀ r, readByte s s.pc = .ok 0xC3#8 → readSized s (s.pc + 1#16) 2 = .error r → step s = .fault r) ∧
    (∀ i r, i.wf = true → encode i = [i.opcode] → readByte s s.pc = .ok i.opcode →
      exec i { s with pc := s.pc + 1#16 } = .fault r → step s = .fault r)

/-- R151: a step in HALTED fetches nothing, changes no state and returns 4. -/
def Obligations.HaltedStepReturnsFour : Prop :=
  ∀ s : State, s.runState = .halted → stepCosted s = .next (s, 4) ∧ step s = .next s

/-- R39: a step from RUNNING that completes ends in HALTED exactly when its opcode is `STOP`, 0x10, and else in RUNNING. -/
def Obligations.OnlyStopLeavesRunning : Prop :=
  ∀ s t : State, s.runState = .running → step s = .next t →
    ∃ op, readByte s s.pc = .ok op ∧
      ((op = 0x10#8 ∧ t.runState = .halted) ∨ (op ≠ 0x10#8 ∧ t.runState = .running))

/-- R106: every completed step returns 4, 8, 12 or 16, and its next state is that of the step without the cost. -/
def Obligations.StepCostsAreFourToSixteen : Prop :=
  ∀ (s t : State) (n : Nat), stepCosted s = .next (t, n) →
    (n = 4 ∨ n = 8 ∨ n = 12 ∨ n = 16) ∧ step s = .next t

/-- R30, R33, R36: no step writes `sp`, the cartridge or a bank selector. -/
def Obligations.StepNeverWritesSpCartOrSelectors : Prop :=
  ∀ s t : State, step s = .next t →
    t.sp = s.sp ∧ t.cart = s.cart ∧ t.workBank = s.workBank ∧ t.romBank = s.romBank ∧ t.videoBank = s.videoBank

/-- R28, R35 and the model's canonical memory: every step from a state that meets the invariant gives one that meets it. -/
def Obligations.StepKeepsTheInvariant : Prop :=
  ∀ s t : State, s.Inv → step s = .next t → t.Inv

/-- Every constructed machine and every launch state meets the invariant, for every `INIT_WORK` in canonical form. -/
def Obligations.ResetMeetsTheInvariant : Prop :=
  State.reset.Inv ∧ (∀ m : Memory, Memory.wf m → (State.construct m).Inv) ∧ (∀ s : State, s.IsLaunch → s.Inv)

/-! ## Frames -/

/-- R29: the opcodes that can change each slot and, after the fetch, `pc`, whatever the instruction's operands are; R39, R43:
`STOP` alone changes `run_state`. -/
def Obligations.SlotsChangeOnlyByTheirWriters : Prop :=
  ∀ (i : Instr) (s t : State), exec i s = .next t →
    let op := i.opcode.toNat
    (t.slots.b ≠ s.slots.b → op = 0x04 ∨ (0x40 ≤ op ∧ op ≤ 0x47)) ∧
    (t.slots.c ≠ s.slots.c → op = 0x0C ∨ (0x48 ≤ op ∧ op ≤ 0x4F)) ∧
    (t.slots.d ≠ s.slots.d → op = 0x14 ∨ (0x50 ≤ op ∧ op ≤ 0x57)) ∧
    (t.slots.e ≠ s.slots.e → op = 0x1C ∨ (0x58 ≤ op ∧ op ≤ 0x5F)) ∧
    (t.slots.h ≠ s.slots.h → op = 0x24 ∨ (0x60 ≤ op ∧ op ≤ 0x67)) ∧
    (t.slots.l ≠ s.slots.l → op = 0x2C ∨ (0x68 ≤ op ∧ op ≤ 0x6F)) ∧
    (t.slots.a ≠ s.slots.a → op = 0x3C ∨ (0x78 ≤ op ∧ op ≤ 0x7F) ∨ (0x80 ≤ op ∧ op ≤ 0x87) ∨
      (0x90 ≤ op ∧ op ≤ 0x97) ∨ (0xA8 ≤ op ∧ op ≤ 0xAF)) ∧
    (t.slots.f ≠ s.slots.f → i.opcode &&& 0xC7#8 = 0x04#8 ∨ (0x80 ≤ op ∧ op ≤ 0x87) ∨
      (0x90 ≤ op ∧ op ≤ 0x97) ∨ (0xA8 ≤ op ∧ op ≤ 0xAF)) ∧
    (t.pc ≠ s.pc → op = 0xC3 ∨ op = 0x18 ∨ op = 0x20 ∨ op = 0x28) ∧
    (t.runState ≠ s.runState → op = 0x10)

/-- R68, R112, R113, R128: `LD (HL),r`, `LD (HL),(HL)` and `INC (HL)` store one byte at `RP[HL]`: every other address reads as
before, and so does every byte of `work` but the one `RP[HL]` maps to, in every bank. The invariant rules out a `workBank` of 0, under which two windows would overlap. -/
def Obligations.StoresChangeOnlyTheByteAtHl : Prop :=
  ∀ (i : Instr) (s t : State), s.Inv → (∃ z, i = Instr.ld .mhl z) ∨ i = .incMhl → exec i s = .next t →
    (∀ a : Word, a ≠ getPair s .hl → readByte t a = readByte s a) ∧
    (∀ o : Nat, region s (getPair s .hl) ≠ .workFixed o → region s (getPair s .hl) ≠ .workSwitch o →
      Memory.read t.work o = Memory.read s.work o)

/-- R68: every other instruction leaves every address reading as before. -/
def Obligations.OtherInstructionsStoreNothing : Prop :=
  ∀ (i : Instr) (s t : State), (∀ z, i ≠ Instr.ld .mhl z) → i ≠ .incMhl → exec i s = .next t →
    t.work = s.work ∧ ∀ a : Word, readByte t a = readByte s a

/-! ## Reset and the host interface (70_reset_and_hazards.md) -/

/-- R42, R190: the state after construction, for every `INIT_WORK`; `State.reset` is one of them (the choice of its Work RAM
contents is the model's, notes/assumptions/1.md). -/
def Obligations.ConstructGivesTheResetState : Prop :=
  (∀ m : Memory, (∀ r : Slot, getSlot (State.construct m) r = 0x00#8) ∧
    (State.construct m).sp = 0x0000#16 ∧ (State.construct m).pc = 0x0000#16 ∧ (State.construct m).cart = [] ∧
    (State.construct m).work = m ∧ (State.construct m).workBank = 1 ∧ (State.construct m).romBank = 1 ∧
    (State.construct m).videoBank = false ∧ (State.construct m).runState = .running) ∧
  ∃ m : Memory, State.reset = State.construct m

/-- R8, R34: the argument of `State.construct` ranges over every content of the 262144 bytes of Work RAM: each function from
offsets to bytes is that of a memory in canonical form. -/
def Obligations.EveryInitWorkIsRepresented : Prop :=
  ∀ initWork : Nat → Byte, ∃ m : Memory, Memory.wf m ∧ ∀ o, o < 262144 → Memory.read m o = initWork o

/-- R193, R194: `load_cartridge` replaces `CART`, sets `pc` to 0x0100 and leaves everything else, in RUNNING and in HALTED;
R194, R166: it cannot be called in FAULTED; that the model then answers a refusal of its own name is notes/assumptions/2.md
(deduced). -/
def Obligations.LoadCartridgeSetsCartAndPc : Prop :=
  ∀ (bytes : List Byte) (s : State),
    (s.runState = .running ∨ s.runState = .halted →
      loadCartridge bytes s = .next { s with cart := bytes, pc := 0x0100#16 }) ∧
    (s.runState = .faulted → loadCartridge bytes s = .refused .loadInFaulted)

/-- R195: the launch state, and that its first instruction is fetched from `CART[0x0100]`. -/
def Obligations.LaunchStateFetchesAtEntry : Prop :=
  ∀ (m : Memory) (bytes : List Byte), ∃ s : State, loadCartridge bytes (State.construct m) = .next s ∧
    (∀ r : Slot, getSlot s r = 0x00#8) ∧ s.sp = 0x0000#16 ∧ s.pc = 0x0100#16 ∧ s.cart = bytes ∧ s.work = m ∧
    s.workBank = 1 ∧ s.romBank = 1 ∧ s.videoBank = false ∧ s.runState = .running ∧
    ∀ op, bytes[0x0100]? = some op → fetchByte s = .ok (op, { s with pc := 0x0101#16 })

/-- R192: a step before a cartridge is loaded faults. -/
def Obligations.StepWithoutCartridgeFaults : Prop :=
  step State.reset = .fault (.backingOutOfRange 0x0000#16 0) ∧
  ∀ m : Memory, step (State.construct m) = .fault (.backingOutOfRange 0x0000#16 0)

/-- R151, R194: HALTED is absorbing under every sequence of host calls: the engine stays HALTED and registers, flags, Work
RAM and selectors keep their values. R166: so is FAULTED, of which nothing else is said. -/
def Obligations.HaltedAndFaultedAreAbsorbing : Prop :=
  (∀ (calls : List HostCall) (s : State), s.runState = .halted →
    (transactAll calls s).runState = .halted ∧ (transactAll calls s).slots = s.slots ∧
    (transactAll calls s).sp = s.sp ∧ (transactAll calls s).work = s.work ∧
    (transactAll calls s).workBank = s.workBank ∧ (transactAll calls s).romBank = s.romBank ∧
    (transactAll calls s).videoBank = s.videoBank) ∧
  (∀ (calls : List HostCall) (s : State), s.runState = .faulted → (transactAll calls s).runState = .faulted)

/-- R166: a transaction that reports a fault leaves the engine FAULTED, and one that reports a cost does not. -/
def Obligations.FaultReportEndsTheRun : Prop :=
  ∀ (call : HostCall) (s : State),
    (∀ r, (transact call s).2 = .faulted r → (transact call s).1.runState = .faulted ∧ call = .step) ∧
    (∀ n, (transact call s).2 = .cost n → (transact call s).1.runState ≠ .faulted)
end

