-- ==== Sys2Proof/Laws/Decode.lean ====
section
/-! SUPPORT. The laws of the decoder and the encoder: what the opcode byte decides (R95), the fields of the groups (R92), and
the byte order of an address operand (R66). -/
namespace Sys2Proof

/-- The field value that selects an operand (R93). -/
def Reg8.code : Reg8 → BitVec 3
  | .b => 0
  | .c => 1
  | .d => 2
  | .e => 3
  | .h => 4
  | .l => 5
  | .mhl => 6
  | .a => 7

@[simp] theorem Reg8.ofCode_code (k : Reg8) : Reg8.ofCode k.code = k := by cases k <;> rfl

@[simp] theorem Reg8.code_ofCode (c : BitVec 3) : (Reg8.ofCode c).code = c := by revert c; decide

/-- The twelve shapes of an instruction: five groups over operand codes, and the exact opcodes (R92). -/
theorem Instr.shape (i : Instr) :
    (∃ y z, i = .ld y z) ∨ (∃ k, i = .inc k) ∨ (∃ k, i = .add k) ∨ (∃ k, i = .sub k) ∨ (∃ k, i = .xor k) ∨
    (∃ a16, i = .jpA16 a16) ∨ (∃ e8, i = .jrE8 e8) ∨ (∃ e8, i = .jrNzE8 e8) ∨ (∃ e8, i = .jrZE8 e8) ∨
    i = .stop ∨ ∃ op, i = .unimplemented op := by
  cases i
  case incB => exact .inr (.inl ⟨.b, rfl⟩)
  case incC => exact .inr (.inl ⟨.c, rfl⟩)
  case stop => exact .inr (.inr (.inr (.inr (.inr (.inr (.inr (.inr (.inr (.inl rfl)))))))))
  case incD => exact .inr (.inl ⟨.d, rfl⟩)
  case jrE8 e => exact .inr (.inr (.inr (.inr (.inr (.inr (.inl ⟨e, rfl⟩))))))
  case incE => exact .inr (.inl ⟨.e, rfl⟩)
  case jrNzE8 e => exact .inr (.inr (.inr (.inr (.inr (.inr (.inr (.inl ⟨e, rfl⟩)))))))
  case incH => exact .inr (.inl ⟨.h, rfl⟩)
  case jrZE8 e => exact .inr (.inr (.inr (.inr (.inr (.inr (.inr (.inr (.inl ⟨e, rfl⟩))))))))
  case incL => exact .inr (.inl ⟨.l, rfl⟩)
  case incMhl => exact .inr (.inl ⟨.mhl, rfl⟩)
  case incA => exact .inr (.inl ⟨.a, rfl⟩)
  case ldBB => exact .inl ⟨.b, .b, rfl⟩
  case ldBC => exact .inl ⟨.b, .c, rfl⟩
  case ldBD => exact .inl ⟨.b, .d, rfl⟩
  case ldBE => exact .inl ⟨.b, .e, rfl⟩
  case ldBH => exact .inl ⟨.b, .h, rfl⟩
  case ldBL => exact .inl ⟨.b, .l, rfl⟩
  case ldBMhl => exact .inl ⟨.b, .mhl, rfl⟩
  case ldBA => exact .inl ⟨.b, .a, rfl⟩
  case ldCB => exact .inl ⟨.c, .b, rfl⟩
  case ldCC => exact .inl ⟨.c, .c, rfl⟩
  case ldCD => exact .inl ⟨.c, .d, rfl⟩
  case ldCE => exact .inl ⟨.c, .e, rfl⟩
  case ldCH => exact .inl ⟨.c, .h, rfl⟩
  case ldCL => exact .inl ⟨.c, .l, rfl⟩
  case ldCMhl => exact .inl ⟨.c, .mhl, rfl⟩
  case ldCA => exact .inl ⟨.c, .a, rfl⟩
  case ldDB => exact .inl ⟨.d, .b, rfl⟩
  case ldDC => exact .inl ⟨.d, .c, rfl⟩
  case ldDD => exact .inl ⟨.d, .d, rfl⟩
  case ldDE => exact .inl ⟨.d, .e, rfl⟩
  case ldDH => exact .inl ⟨.d, .h, rfl⟩
  case ldDL => exact .inl ⟨.d, .l, rfl⟩
  case ldDMhl => exact .inl ⟨.d, .mhl, rfl⟩
  case ldDA => exact .inl ⟨.d, .a, rfl⟩
  case ldEB => exact .inl ⟨.e, .b, rfl⟩
  case ldEC => exact .inl ⟨.e, .c, rfl⟩
  case ldED => exact .inl ⟨.e, .d, rfl⟩
  case ldEE => exact .inl ⟨.e, .e, rfl⟩
  case ldEH => exact .inl ⟨.e, .h, rfl⟩
  case ldEL => exact .inl ⟨.e, .l, rfl⟩
  case ldEMhl => exact .inl ⟨.e, .mhl, rfl⟩
  case ldEA => exact .inl ⟨.e, .a, rfl⟩
  case ldHB => exact .inl ⟨.h, .b, rfl⟩
  case ldHC => exact .inl ⟨.h, .c, rfl⟩
  case ldHD => exact .inl ⟨.h, .d, rfl⟩
  case ldHE => exact .inl ⟨.h, .e, rfl⟩
  case ldHH => exact .inl ⟨.h, .h, rfl⟩
  case ldHL => exact .inl ⟨.h, .l, rfl⟩
  case ldHMhl => exact .inl ⟨.h, .mhl, rfl⟩
  case ldHA => exact .inl ⟨.h, .a, rfl⟩
  case ldLB => exact .inl ⟨.l, .b, rfl⟩
  case ldLC => exact .inl ⟨.l, .c, rfl⟩
  case ldLD => exact .inl ⟨.l, .d, rfl⟩
  case ldLE => exact .inl ⟨.l, .e, rfl⟩
  case ldLH => exact .inl ⟨.l, .h, rfl⟩
  case ldLL => exact .inl ⟨.l, .l, rfl⟩
  case ldLMhl => exact .inl ⟨.l, .mhl, rfl⟩
  case ldLA => exact .inl ⟨.l, .a, rfl⟩
  case ldMhlB => exact .inl ⟨.mhl, .b, rfl⟩
  case ldMhlC => exact .inl ⟨.mhl, .c, rfl⟩
  case ldMhlD => exact .inl ⟨.mhl, .d, rfl⟩
  case ldMhlE => exact .inl ⟨.mhl, .e, rfl⟩
  case ldMhlH => exact .inl ⟨.mhl, .h, rfl⟩
  case ldMhlL => exact .inl ⟨.mhl, .l, rfl⟩
  case ldMhlMhl => exact .inl ⟨.mhl, .mhl, rfl⟩
  case ldMhlA => exact .inl ⟨.mhl, .a, rfl⟩
  case ldAB => exact .inl ⟨.a, .b, rfl⟩
  case ldAC => exact .inl ⟨.a, .c, rfl⟩
  case ldAD => exact .inl ⟨.a, .d, rfl⟩
  case ldAE => exact .inl ⟨.a, .e, rfl⟩
  case ldAH => exact .inl ⟨.a, .h, rfl⟩
  case ldAL => exact .inl ⟨.a, .l, rfl⟩
  case ldAMhl => exact .inl ⟨.a, .mhl, rfl⟩
  case ldAA => exact .inl ⟨.a, .a, rfl⟩
  case addAB => exact .inr (.inr (.inl ⟨.b, rfl⟩))
  case addAC => exact .inr (.inr (.inl ⟨.c, rfl⟩))
  case addAD => exact .inr (.inr (.inl ⟨.d, rfl⟩))
  case addAE => exact .inr (.inr (.inl ⟨.e, rfl⟩))
  case addAH => exact .inr (.inr (.inl ⟨.h, rfl⟩))
  case addAL => exact .inr (.inr (.inl ⟨.l, rfl⟩))
  case addAMhl => exact .inr (.inr (.inl ⟨.mhl, rfl⟩))
  case addAA => exact .inr (.inr (.inl ⟨.a, rfl⟩))
  case subAB => exact .inr (.inr (.inr (.inl ⟨.b, rfl⟩)))
  case subAC => exact .inr (.inr (.inr (.inl ⟨.c, rfl⟩)))
  case subAD => exact .inr (.inr (.inr (.inl ⟨.d, rfl⟩)))
  case subAE => exact .inr (.inr (.inr (.inl ⟨.e, rfl⟩)))
  case subAH => exact .inr (.inr (.inr (.inl ⟨.h, rfl⟩)))
  case subAL => exact .inr (.inr (.inr (.inl ⟨.l, rfl⟩)))
  case subAMhl => exact .inr (.inr (.inr (.inl ⟨.mhl, rfl⟩)))
  case subAA => exact .inr (.inr (.inr (.inl ⟨.a, rfl⟩)))
  case xorAB => exact .inr (.inr (.inr (.inr (.inl ⟨.b, rfl⟩))))
  case xorAC => exact .inr (.inr (.inr (.inr (.inl ⟨.c, rfl⟩))))
  case xorAD => exact .inr (.inr (.inr (.inr (.inl ⟨.d, rfl⟩))))
  case xorAE => exact .inr (.inr (.inr (.inr (.inl ⟨.e, rfl⟩))))
  case xorAH => exact .inr (.inr (.inr (.inr (.inl ⟨.h, rfl⟩))))
  case xorAL => exact .inr (.inr (.inr (.inr (.inl ⟨.l, rfl⟩))))
  case xorAMhl => exact .inr (.inr (.inr (.inr (.inl ⟨.mhl, rfl⟩))))
  case xorAA => exact .inr (.inr (.inr (.inr (.inl ⟨.a, rfl⟩))))
  case jpA16 a => exact .inr (.inr (.inr (.inr (.inr (.inl ⟨a, rfl⟩)))))
  case unimplemented op => exact .inr (.inr (.inr (.inr (.inr (.inr (.inr (.inr (.inr (.inr (⟨op, rfl⟩))))))))))

/-! ## The opcode byte of each group (R92) -/

theorem Instr.opcode_ld (y z : Reg8) :
    (Instr.ld y z).opcode = 0x40#8 ||| (y.code.setWidth 8 <<< 3) ||| z.code.setWidth 8 := by
  cases y <;> cases z <;> decide

theorem Instr.opcode_inc (k : Reg8) : (Instr.inc k).opcode = 0x04#8 ||| (k.code.setWidth 8 <<< 3) := by
  cases k <;> decide

theorem Instr.opcode_add (k : Reg8) : (Instr.add k).opcode = 0x80#8 ||| k.code.setWidth 8 := by cases k <;> decide

theorem Instr.opcode_sub (k : Reg8) : (Instr.sub k).opcode = 0x90#8 ||| k.code.setWidth 8 := by cases k <;> decide

theorem Instr.opcode_xor (k : Reg8) : (Instr.xor k).opcode = 0xA8#8 ||| k.code.setWidth 8 := by cases k <;> decide

/-! ## Operand bytes (R91): only the exact opcodes 0x18, 0x20, 0x28 and 0xC3 have any -/

@[simp] theorem Instr.operandBytes_ld (y z : Reg8) : (Instr.ld y z).operandBytes = [] := by
  cases y <;> cases z <;> rfl

@[simp] theorem Instr.operandBytes_inc (k : Reg8) : (Instr.inc k).operandBytes = [] := by cases k <;> rfl

@[simp] theorem Instr.operandBytes_add (k : Reg8) : (Instr.add k).operandBytes = [] := by cases k <;> rfl

@[simp] theorem Instr.operandBytes_sub (k : Reg8) : (Instr.sub k).operandBytes = [] := by cases k <;> rfl

@[simp] theorem Instr.operandBytes_xor (k : Reg8) : (Instr.xor k).operandBytes = [] := by cases k <;> rfl

/-! ## What the opcode byte decides (R95) -/

theorem decodeOpcode_ld (y z : Reg8) : decodeOpcode (Instr.ld y z).opcode = .o (.ld y z) := by
  cases y <;> cases z <;> rfl

theorem decodeOpcode_inc (k : Reg8) : decodeOpcode (Instr.inc k).opcode = .o (.inc k) := by cases k <;> rfl

theorem decodeOpcode_add (k : Reg8) : decodeOpcode (Instr.add k).opcode = .o (.add k) := by cases k <;> rfl

theorem decodeOpcode_sub (k : Reg8) : decodeOpcode (Instr.sub k).opcode = .o (.sub k) := by cases k <;> rfl

theorem decodeOpcode_xor (k : Reg8) : decodeOpcode (Instr.xor k).opcode = .o (.xor k) := by cases k <;> rfl

theorem decodeOpcode_stop : decodeOpcode 0x10#8 = .o .stop := rfl

theorem decodeOpcode_jr : decodeOpcode 0x18#8 = .oe .jrE8 := rfl

theorem decodeOpcode_jrNz : decodeOpcode 0x20#8 = .oe .jrNzE8 := rfl

theorem decodeOpcode_jrZ : decodeOpcode 0x28#8 = .oe .jrZE8 := rfl

theorem decodeOpcode_jp : decodeOpcode 0xC3#8 = .oa .jpA16 := rfl

/-- Every byte decodes (R95): to a well-formed instruction with that opcode, to one of the relative jumps, or to `JP`. -/
theorem decodeOpcode_cases (op : Byte) :
    (∃ i, decodeOpcode op = .o i ∧ i.wf = true ∧ i.opcode = op ∧ i.operandBytes = []) ∨
    (op = 0x18#8 ∧ decodeOpcode op = .oe .jrE8) ∨ (op = 0x20#8 ∧ decodeOpcode op = .oe .jrNzE8) ∨
    (op = 0x28#8 ∧ decodeOpcode op = .oe .jrZE8) ∨ (op = 0xC3#8 ∧ decodeOpcode op = .oa .jpA16) := by
  by_cases h1 : op = 0x18#8
  · exact .inr (.inl ⟨h1, by rw [h1]; rfl⟩)
  by_cases h2 : op = 0x20#8
  · exact .inr (.inr (.inl ⟨h2, by rw [h2]; rfl⟩))
  by_cases h3 : op = 0x28#8
  · exact .inr (.inr (.inr (.inl ⟨h3, by rw [h3]; rfl⟩)))
  by_cases h4 : op = 0xC3#8
  · exact .inr (.inr (.inr (.inr ⟨h4, by rw [h4]; rfl⟩)))
  refine .inl ?_
  have key : ∀ op : Byte, op ≠ 0x18#8 → op ≠ 0x20#8 → op ≠ 0x28#8 → op ≠ 0xC3#8 →
      (match decodeOpcode op with
        | .o i => i.wf && i.opcode == op && i.operandBytes == []
        | _ => false) = true := by decide
  have h := key op h1 h2 h3 h4
  split at h
  · next i hi =>
    simp only [Bool.and_eq_true, beq_iff_eq] at h
    exact ⟨i, hi, h.1.1, h.1.2, h.2⟩
  · cases h

/-- The opcode bytes with no handler decode to the default row (R97). -/
theorem decodeOpcode_unimplemented (op : Byte) (h : unimplementedByte op = true) :
    decodeOpcode op = .o (.unimplemented op) := by
  have key : ∀ op : Byte, unimplementedByte op = true →
      (match decodeOpcode op with
        | .o i => i == .unimplemented op
        | _ => false) = true := by decide
  have h := key op h
  split at h
  · next i hi => rw [hi, eq_of_beq h]
  · cases h

/-- The opcode byte of a well-formed instruction without operand bytes decides it (R95). -/
theorem decodeOpcode_opcode (i : Instr) (hwf : i.wf = true) (h : i.operandBytes = []) :
    decodeOpcode i.opcode = .o i := by
  rcases i.shape with ⟨y, z, rfl⟩ | ⟨k, rfl⟩ | ⟨k, rfl⟩ | ⟨k, rfl⟩ | ⟨k, rfl⟩ | ⟨a, rfl⟩ | ⟨e, rfl⟩ | ⟨e, rfl⟩ | ⟨e, rfl⟩ |
    rfl | ⟨op, rfl⟩
  · exact decodeOpcode_ld y z
  · exact decodeOpcode_inc k
  · exact decodeOpcode_add k
  · exact decodeOpcode_sub k
  · exact decodeOpcode_xor k
  · cases h
  · cases h
  · cases h
  · cases h
  · rfl
  · exact decodeOpcode_unimplemented op hwf

/-! ## The byte order of an address operand (R66) -/

theorem littleEndian_pair (lo hi : Byte) : littleEndian [lo, hi] = hi ++ lo := by
  apply BitVec.eq_of_getLsbD_eq
  intro i hi'
  simp only [littleEndian, List.foldr, BitVec.zero_shiftLeft, BitVec.zero_or, BitVec.getLsbD_or,
    BitVec.getLsbD_shiftLeft, BitVec.getLsbD_setWidth, BitVec.getLsbD_append]
  by_cases h : i < 8
  · simp [h, hi']
  · have h' : lo.getLsbD i = false := BitVec.getLsbD_of_ge lo i (by omega)
    have h'' : i - 8 < 16 := by omega
    simp [h, hi', h', h'']

theorem littleEndian_toNat (lo hi : Byte) : (littleEndian [lo, hi]).toNat = lo.toNat + 256 * hi.toNat := by
  have h := lo.isLt
  rw [littleEndian_pair, BitVec.toNat_append, Nat.shiftLeft_eq, Nat.mul_comm, ← Nat.two_pow_add_eq_or_of_lt h,
    Nat.add_comm]

/-- An address is the little-endian reading of its two operand bytes (R91). -/
theorem littleEndian_split (a : Word) : littleEndian [a.extractLsb' 0 8, a.extractLsb' 8 8] = a := by
  apply BitVec.eq_of_toNat_eq
  have h := a.isLt
  rw [littleEndian_toNat]
  simp only [BitVec.extractLsb'_toNat, Nat.shiftRight_eq_div_pow]
  omega

theorem append_low (hi lo : Byte) : (hi ++ lo).extractLsb' 0 8 = lo := by
  rw [← littleEndian_pair]
  apply BitVec.eq_of_toNat_eq
  have := lo.isLt
  simp only [BitVec.extractLsb'_toNat, littleEndian_toNat]
  omega

theorem append_high (hi lo : Byte) : (hi ++ lo).extractLsb' 8 8 = hi := by
  rw [← littleEndian_pair]
  apply BitVec.eq_of_toNat_eq
  have := lo.isLt
  have := hi.isLt
  simp only [BitVec.extractLsb'_toNat, littleEndian_toNat, Nat.shiftRight_eq_div_pow]
  omega

/-! ## Decoding by format (R91) -/

theorem decode_o (op : Byte) (i : Instr) (rest : List Byte) (h : decodeOpcode op = .o i) :
    decode (op :: rest) = .ok (i, rest) := by
  simp only [decode, h]

theorem decode_oe (op e8 : Byte) (mk : Byte → Instr) (rest : List Byte) (h : decodeOpcode op = .oe mk) :
    decode (op :: e8 :: rest) = .ok (mk e8, rest) := by
  simp only [decode, h]

theorem decode_oa (op lo hi : Byte) (mk : Word → Instr) (rest : List Byte) (h : decodeOpcode op = .oa mk) :
    decode (op :: lo :: hi :: rest) = .ok (mk (hi ++ lo), rest) := by
  simp only [decode, h, littleEndian_pair]

/-- Everything a byte sequence that decodes can be, by the format of its opcode. -/
theorem decode_ok_cases (bytes rest : List Byte) (i : Instr) (h : decode bytes = .ok (i, rest)) :
    (∃ op, bytes = op :: rest ∧ decodeOpcode op = .o i) ∨
    (∃ op e8 mk, bytes = op :: e8 :: rest ∧ decodeOpcode op = .oe mk ∧ i = mk e8) ∨
    (∃ op lo hi mk, bytes = op :: lo :: hi :: rest ∧ decodeOpcode op = .oa mk ∧ i = mk (hi ++ lo)) := by
  cases bytes with
  | nil => cases h
  | cons op tail =>
    cases hd : decodeOpcode op with
    | o j =>
      rw [decode_o op j tail hd] at h
      cases h
      exact .inl ⟨op, rfl, hd⟩
    | oe mk =>
      cases tail with
      | nil => simp only [decode, hd, reduceCtorEq] at h
      | cons e8 tail =>
        rw [decode_oe op e8 mk tail hd] at h
        cases h
        exact .inr (.inl ⟨op, e8, mk, rfl, hd, rfl⟩)
    | oa mk =>
      match tail, h with
      | [], h => simp only [decode, hd, reduceCtorEq] at h
      | [_], h => simp only [decode, hd, reduceCtorEq] at h
      | lo :: hi :: tail, h =>
        rw [decode_oa op lo hi mk tail hd] at h
        cases h
        exact .inr (.inr ⟨op, lo, hi, mk, rfl, hd, rfl⟩)

end Sys2Proof
end

