-- ==== Sys2Proof/Laws/Memory.lean ====
section
/-! SUPPORT. The laws of the Work RAM store: reads and writes (R70), the canonical form and that it is kept, that equal
contents are equal data, and that every content is represented (R8). -/
namespace Sys2Proof.Machine

@[simp] theorem Memory.read_nil (o : Nat) : Memory.read [] o = Config.unlistedByte := rfl

theorem Memory.read_cons (p : Nat) (w : Byte) (m : Memory) (o : Nat) :
    Memory.read ((p, w) :: m) o = if o = p then w else Memory.read m o := rfl

/-- An offset below every listed one reads as unlisted. -/
theorem Memory.read_of_lt (m : Memory) (o : Nat) (h : ∀ x ∈ m, o < x.1) : Memory.read m o = Config.unlistedByte := by
  induction m with
  | nil => rfl
  | cons x m ih =>
    obtain ⟨p, w⟩ := x
    have hp : o < p := h (p, w) (by simp)
    rw [Memory.read_cons, if_neg (by omega)]
    exact ih (fun x hx => h x (by simp [hx]))

theorem Memory.read_list (o q : Nat) (v : Byte) (m : Memory) (h : ∀ x ∈ m, o < x.1) :
    Memory.read (Memory.list o v m) q = if q = o then v else Memory.read m q := by
  unfold Memory.list
  by_cases hv : v = Config.unlistedByte
  · rw [if_pos hv]
    split
    · next hq => rw [hq, hv, Memory.read_of_lt m o h]
    · rfl
  · rw [if_neg hv, Memory.read_cons]

/-- `work[o] <- v` followed by a read: the value at `o`, and every other offset as before (R70). -/
theorem Memory.read_write (m : Memory) (o q : Nat) (v : Byte) (h : m.Pairwise (fun x y => x.1 < y.1)) :
    Memory.read (Memory.write m o v) q = if q = o then v else Memory.read m q := by
  induction m with
  | nil => exact Memory.read_list o q v [] (by simp)
  | cons x m ih =>
    obtain ⟨p, w⟩ := x
    rw [List.pairwise_cons] at h
    unfold Memory.write
    split
    · next ho =>
      apply Memory.read_list
      intro x hx
      rcases List.mem_cons.1 hx with rfl | hx
      · exact ho
      · have := h.1 x hx
        omega
    · split
      · next ho =>
        subst ho
        rw [Memory.read_list o q v m (fun x hx => h.1 x hx), Memory.read_cons]
        split <;> rfl
      · next ho =>
        rw [Memory.read_cons, ih h.2, Memory.read_cons]
        by_cases hq : q = p
        · rw [if_pos hq, if_pos hq, if_neg (by omega)]
        · rw [if_neg hq, if_neg hq]

/-- Every entry of a written memory is an old one or the new one. -/
theorem Memory.mem_write (m : Memory) (o : Nat) (v : Byte) (x : Host.Cell) (hx : x ∈ Memory.write m o v) :
    x ∈ m ∨ (x = (o, v) ∧ v ≠ Config.unlistedByte) := by
  have key : ∀ l : Memory, x ∈ Memory.list o v l → x ∈ l ∨ (x = (o, v) ∧ v ≠ Config.unlistedByte) := by
    intro l hl
    unfold Memory.list at hl
    split at hl
    · exact .inl hl
    · next hv =>
      rcases List.mem_cons.1 hl with rfl | hl
      · exact .inr ⟨rfl, hv⟩
      · exact .inl hl
  induction m with
  | nil => exact key [] hx
  | cons y m ih =>
    obtain ⟨p, w⟩ := y
    unfold Memory.write at hx
    split at hx
    · exact key _ hx
    · split at hx
      · rcases key _ hx with h | h
        · exact .inl (by simp [h])
        · exact .inr h
      · rcases List.mem_cons.1 hx with h | h
        · exact .inl (by simp [h])
        · rcases ih h with h | h
          · exact .inl (by simp [h])
          · exact .inr h

/-- A write keeps the offsets strictly rising. -/
theorem Memory.write_pairwise (m : Memory) (o : Nat) (v : Byte) (h : m.Pairwise (fun x y => x.1 < y.1)) :
    (Memory.write m o v).Pairwise (fun x y => x.1 < y.1) := by
  have key : ∀ l : Memory, l.Pairwise (fun x y => x.1 < y.1) → (∀ x ∈ l, o < x.1) →
      (Memory.list o v l).Pairwise (fun x y => x.1 < y.1) := by
    intro l hl ho
    unfold Memory.list
    split
    · exact hl
    · exact List.pairwise_cons.2 ⟨ho, hl⟩
  induction m with
  | nil => exact key [] List.Pairwise.nil (by simp)
  | cons y m ih =>
    obtain ⟨p, w⟩ := y
    have hm := List.pairwise_cons.1 h
    unfold Memory.write
    split
    · next ho =>
      refine key _ h ?_
      intro x hx
      rcases List.mem_cons.1 hx with rfl | hx
      · exact ho
      · have := hm.1 x hx
        omega
    · split
      · next ho =>
        subst ho
        exact key _ hm.2 hm.1
      · next h1 h2 =>
        refine List.pairwise_cons.2 ⟨?_, ih hm.2⟩
        intro x hx
        rcases Memory.mem_write m o v x hx with hx | ⟨rfl, _⟩
        · exact hm.1 x hx
        · show p < o
          omega

/-- A write inside the store keeps the canonical form. -/
theorem Memory.write_wf (m : Memory) (o : Nat) (v : Byte) (h : Memory.wf m) (ho : o < Config.workSize) :
    Memory.wf (Memory.write m o v) := by
  refine ⟨Memory.write_pairwise m o v h.1, ?_⟩
  intro x hx
  rcases Memory.mem_write m o v x hx with hx | ⟨rfl, hv⟩
  · exact h.2 x hx
  · exact ⟨ho, hv⟩

theorem Memory.wf_nil : Memory.wf [] := ⟨List.Pairwise.nil, fun _ hx => nomatch hx⟩

theorem Memory.wf_tail (x : Host.Cell) (m : Memory) (h : Memory.wf (x :: m)) : Memory.wf m :=
  ⟨(List.pairwise_cons.1 h.1).2, fun y hy => h.2 y (by simp [hy])⟩

/-- Memories in canonical form with equal contents are equal data. -/
theorem Memory.ext_of_wf (m n : Memory) (hm : Memory.wf m) (hn : Memory.wf n)
    (h : ∀ o, Memory.read m o = Memory.read n o) : m = n := by
  induction m generalizing n with
  | nil =>
    cases n with
    | nil => rfl
    | cons y n =>
      have h' := h y.1
      rw [Memory.read_nil, Memory.read_cons, if_pos rfl] at h'
      exact absurd h'.symm (hn.2 y (by simp)).2
  | cons x m ih =>
    obtain ⟨p, w⟩ := x
    cases n with
    | nil =>
      have h' := h p
      rw [Memory.read_nil, Memory.read_cons, if_pos rfl] at h'
      exact absurd h' (hm.2 (p, w) (by simp)).2
    | cons y n =>
      obtain ⟨q, u⟩ := y
      have hmp := List.pairwise_cons.1 hm.1
      have hnp := List.pairwise_cons.1 hn.1
      have hpq : p = q := by
        rcases Nat.lt_trichotomy p q with hlt | heq | hgt
        · exfalso
          have h' := h p
          rw [Memory.read_cons, if_pos rfl, Memory.read_of_lt ((q, u) :: n) p ?_] at h'
          · exact (hm.2 (p, w) (by simp)).2 h'
          · intro x hx
            rcases List.mem_cons.1 hx with rfl | hx
            · exact hlt
            · have := hnp.1 x hx
              omega
        · exact heq
        · exfalso
          have h' := (h q).symm
          rw [Memory.read_cons, if_pos rfl, Memory.read_of_lt ((p, w) :: m) q ?_] at h'
          · exact (hn.2 (q, u) (by simp)).2 h'
          · intro x hx
            rcases List.mem_cons.1 hx with rfl | hx
            · exact hgt
            · have := hmp.1 x hx
              omega
      subst hpq
      have hwu : w = u := by
        have h' := h p
        rwa [Memory.read_cons, if_pos rfl, Memory.read_cons, if_pos rfl] at h'
      subst hwu
      rw [ih n (Memory.wf_tail _ m hm) (Memory.wf_tail _ n hn) ?_]
      intro o
      by_cases ho : o = p
      · rw [ho, Memory.read_of_lt m p hmp.1, Memory.read_of_lt n p hnp.1]
      · have h' := h o
        rwa [Memory.read_cons, if_neg ho, Memory.read_cons, if_neg ho] at h'

/-- Writing back the byte an offset holds changes nothing. -/
theorem Memory.write_read (m : Memory) (o : Nat) (h : Memory.wf m) (ho : o < Config.workSize) :
    Memory.write m o (Memory.read m o) = m := by
  apply Memory.ext_of_wf _ _ (Memory.write_wf m o _ h ho) h
  intro q
  rw [Memory.read_write m o q _ h.1]
  split
  · next hq => rw [hq]
  · rfl

/-- The memory that holds `f` at the offsets below `n`. -/
def Memory.ofFun (f : Nat → Byte) : Nat → Memory
  | 0 => []
  | n + 1 => Memory.write (Memory.ofFun f n) n (f n)

theorem Memory.ofFun_wf (f : Nat → Byte) (n : Nat) (h : n ≤ Config.workSize) : Memory.wf (Memory.ofFun f n) := by
  induction n with
  | zero => exact Memory.wf_nil
  | succ n ih => exact Memory.write_wf _ n _ (ih (by omega)) (by omega)

theorem Memory.ofFun_read (f : Nat → Byte) (n o : Nat) (hn : n ≤ Config.workSize) (h : o < n) :
    Memory.read (Memory.ofFun f n) o = f o := by
  induction n with
  | zero => omega
  | succ n ih =>
    rw [Memory.ofFun, Memory.read_write _ n o _ (Memory.ofFun_wf f n (by omega)).1]
    split
    · next ho => rw [ho]
    · exact ih (by omega) (by omega)

end Sys2Proof.Machine
end

