-- ==== Sys2Proof/Laws/State.lean ====
section
/-! SUPPORT. One lemma per field per update of `State`, so that no later proof unfolds a record update; and the laws of the
slot, pair and flag ports (R21 to R27). -/
namespace Sys2Proof.Machine

@[simp] theorem setSlot_sp (s : State) (r : Slot) (v : Byte) : (setSlot s r v).sp = s.sp := by cases r <;> rfl
@[simp] theorem setSlot_pc (s : State) (r : Slot) (v : Byte) : (setSlot s r v).pc = s.pc := by cases r <;> rfl
@[simp] theorem setSlot_cart (s : State) (r : Slot) (v : Byte) : (setSlot s r v).cart = s.cart := by cases r <;> rfl
@[simp] theorem setSlot_work (s : State) (r : Slot) (v : Byte) : (setSlot s r v).work = s.work := by cases r <;> rfl
@[simp] theorem setSlot_workBank (s : State) (r : Slot) (v : Byte) : (setSlot s r v).workBank = s.workBank := by cases r <;> rfl
@[simp] theorem setSlot_romBank (s : State) (r : Slot) (v : Byte) : (setSlot s r v).romBank = s.romBank := by cases r <;> rfl
@[simp] theorem setSlot_videoBank (s : State) (r : Slot) (v : Byte) : (setSlot s r v).videoBank = s.videoBank := by cases r <;> rfl
@[simp] theorem setSlot_runState (s : State) (r : Slot) (v : Byte) : (setSlot s r v).runState = s.runState := by cases r <;> rfl

@[simp] theorem setFlags_sp (s : State) (x : Flags) : (setFlags s x).sp = s.sp := rfl
@[simp] theorem setFlags_pc (s : State) (x : Flags) : (setFlags s x).pc = s.pc := rfl
@[simp] theorem setFlags_cart (s : State) (x : Flags) : (setFlags s x).cart = s.cart := rfl
@[simp] theorem setFlags_work (s : State) (x : Flags) : (setFlags s x).work = s.work := rfl
@[simp] theorem setFlags_workBank (s : State) (x : Flags) : (setFlags s x).workBank = s.workBank := rfl
@[simp] theorem setFlags_romBank (s : State) (x : Flags) : (setFlags s x).romBank = s.romBank := rfl
@[simp] theorem setFlags_videoBank (s : State) (x : Flags) : (setFlags s x).videoBank = s.videoBank := rfl
@[simp] theorem setFlags_runState (s : State) (x : Flags) : (setFlags s x).runState = s.runState := rfl

@[simp] theorem setPair_sp (s : State) (p : Pair) (v : Word) : (setPair s p v).sp = s.sp := by simp [setPair]
@[simp] theorem setPair_pc (s : State) (p : Pair) (v : Word) : (setPair s p v).pc = s.pc := by simp [setPair]
@[simp] theorem setPair_cart (s : State) (p : Pair) (v : Word) : (setPair s p v).cart = s.cart := by simp [setPair]
@[simp] theorem setPair_work (s : State) (p : Pair) (v : Word) : (setPair s p v).work = s.work := by simp [setPair]
@[simp] theorem setPair_workBank (s : State) (p : Pair) (v : Word) : (setPair s p v).workBank = s.workBank := by simp [setPair]
@[simp] theorem setPair_romBank (s : State) (p : Pair) (v : Word) : (setPair s p v).romBank = s.romBank := by simp [setPair]
@[simp] theorem setPair_videoBank (s : State) (p : Pair) (v : Word) : (setPair s p v).videoBank = s.videoBank := by simp [setPair]
@[simp] theorem setPair_runState (s : State) (p : Pair) (v : Word) : (setPair s p v).runState = s.runState := by simp [setPair]

@[simp] theorem setPc_slots (s : State) (v : Word) : (setPc s v).slots = s.slots := rfl
@[simp] theorem setPc_sp (s : State) (v : Word) : (setPc s v).sp = s.sp := rfl
@[simp] theorem setPc_pc (s : State) (v : Word) : (setPc s v).pc = v := rfl
@[simp] theorem setPc_cart (s : State) (v : Word) : (setPc s v).cart = s.cart := rfl
@[simp] theorem setPc_work (s : State) (v : Word) : (setPc s v).work = s.work := rfl
@[simp] theorem setPc_workBank (s : State) (v : Word) : (setPc s v).workBank = s.workBank := rfl
@[simp] theorem setPc_romBank (s : State) (v : Word) : (setPc s v).romBank = s.romBank := rfl
@[simp] theorem setPc_videoBank (s : State) (v : Word) : (setPc s v).videoBank = s.videoBank := rfl
@[simp] theorem setPc_runState (s : State) (v : Word) : (setPc s v).runState = s.runState := rfl
@[simp] theorem getSlot_setPc (s : State) (v : Word) (q : Slot) : getSlot (setPc s v) q = getSlot s q := by cases q <;> rfl
@[simp] theorem getPair_setPc (s : State) (v : Word) (p : Pair) : getPair (setPc s v) p = getPair s p := by simp [getPair]

@[simp] theorem setRunState_slots (s : State) (v : RunState) : (setRunState s v).slots = s.slots := rfl
@[simp] theorem setRunState_sp (s : State) (v : RunState) : (setRunState s v).sp = s.sp := rfl
@[simp] theorem setRunState_pc (s : State) (v : RunState) : (setRunState s v).pc = s.pc := rfl
@[simp] theorem setRunState_cart (s : State) (v : RunState) : (setRunState s v).cart = s.cart := rfl
@[simp] theorem setRunState_work (s : State) (v : RunState) : (setRunState s v).work = s.work := rfl
@[simp] theorem setRunState_workBank (s : State) (v : RunState) : (setRunState s v).workBank = s.workBank := rfl
@[simp] theorem setRunState_romBank (s : State) (v : RunState) : (setRunState s v).romBank = s.romBank := rfl
@[simp] theorem setRunState_videoBank (s : State) (v : RunState) : (setRunState s v).videoBank = s.videoBank := rfl
@[simp] theorem setRunState_runState (s : State) (v : RunState) : (setRunState s v).runState = v := rfl
@[simp] theorem getSlot_setRunState (s : State) (v : RunState) (q : Slot) : getSlot (setRunState s v) q = getSlot s q := by cases q <;> rfl
@[simp] theorem getPair_setRunState (s : State) (v : RunState) (p : Pair) : getPair (setRunState s v) p = getPair s p := by simp [getPair]

@[simp] theorem setWork_slots (s : State) (v : Memory) : (setWork s v).slots = s.slots := rfl
@[simp] theorem setWork_sp (s : State) (v : Memory) : (setWork s v).sp = s.sp := rfl
@[simp] theorem setWork_pc (s : State) (v : Memory) : (setWork s v).pc = s.pc := rfl
@[simp] theorem setWork_cart (s : State) (v : Memory) : (setWork s v).cart = s.cart := rfl
@[simp] theorem setWork_work (s : State) (v : Memory) : (setWork s v).work = v := rfl
@[simp] theorem setWork_workBank (s : State) (v : Memory) : (setWork s v).workBank = s.workBank := rfl
@[simp] theorem setWork_romBank (s : State) (v : Memory) : (setWork s v).romBank = s.romBank := rfl
@[simp] theorem setWork_videoBank (s : State) (v : Memory) : (setWork s v).videoBank = s.videoBank := rfl
@[simp] theorem setWork_runState (s : State) (v : Memory) : (setWork s v).runState = s.runState := rfl
@[simp] theorem getSlot_setWork (s : State) (v : Memory) (q : Slot) : getSlot (setWork s v) q = getSlot s q := by cases q <;> rfl
@[simp] theorem getPair_setWork (s : State) (v : Memory) (p : Pair) : getPair (setWork s v) p = getPair s p := by simp [getPair]

@[simp] theorem enterFaulted_runState (s : State) : (enterFaulted s).runState = .faulted := rfl

/-- A slot reads what was last written to it, and a write moves no other slot (R21). -/
theorem getSlot_setSlot (s : State) (r q : Slot) (v : Byte) :
    getSlot (setSlot s r v) q = if q = r then v else getSlot s q := by
  cases r <;> cases q <;> rfl

@[simp] theorem getSlot_setSlot_same (s : State) (r : Slot) (v : Byte) : getSlot (setSlot s r v) r = v := by
  simp [getSlot_setSlot]

theorem getSlot_setSlot_other (s : State) (r q : Slot) (v : Byte) (h : q ≠ r) :
    getSlot (setSlot s r v) q = getSlot s q := by
  simp [getSlot_setSlot, h]

/-- Only the slots change under a slot write. -/
theorem setSlot_frame (s : State) (r : Slot) (v : Byte) :
    setSlot s r v = { s with slots := (setSlot s r v).slots } := by
  cases r <;> rfl

/-- Writing back the value a slot holds changes nothing. -/
@[simp] theorem setSlot_getSlot (s : State) (r : Slot) : setSlot s r (getSlot s r) = s := by
  cases r <;> rfl

/-- The slots are their eight readings. -/
theorem slots_ext (s t : State) (h : ∀ q, getSlot s q = getSlot t q) : s.slots = t.slots := by
  have hb : s.slots.b = t.slots.b := h .b
  have hc : s.slots.c = t.slots.c := h .c
  have hd : s.slots.d = t.slots.d := h .d
  have he : s.slots.e = t.slots.e := h .e
  have hh : s.slots.h = t.slots.h := h .h
  have hl : s.slots.l = t.slots.l := h .l
  have hf : s.slots.f = t.slots.f := h .f
  have ha : s.slots.a = t.slots.a := h .a
  cases hs : s.slots
  cases ht : t.slots
  rw [hs, ht] at hb hc hd he hh hl hf ha
  exact (Slots.mk.injEq ..).mpr ⟨hb, hc, hd, he, hh, hl, hf, ha⟩

/-- A pair as a number (R22, R24). -/
theorem getPair_toNat (s : State) (p : Pair) :
    (getPair s p).toNat = (getSlot s p.high).toNat * 256 + (getSlot s p.low).toNat := by
  have h := (getSlot s p.low).isLt
  simp only [getPair, BitVec.toNat_append, Nat.shiftLeft_eq]
  rw [Nat.mul_comm, ← Nat.two_pow_add_eq_or_of_lt h]

theorem hi8_toNat (v : Word) : (hi8 v).toNat = v.toNat / 256 := by
  have := v.isLt
  simp only [hi8, BitVec.extractLsb'_toNat, Nat.shiftRight_eq_div_pow]
  omega

theorem lo8_toNat (v : Word) : (lo8 v).toNat = v.toNat % 256 := by
  simp [lo8, BitVec.extractLsb'_toNat]

@[simp] theorem pair_low_ne_high (p : Pair) : p.low ≠ p.high := by cases p <;> decide

/-- A pair reads back what was written to it (R23). -/
@[simp] theorem getPair_setPair (s : State) (p : Pair) (v : Word) : getPair (setPair s p v) p = v := by
  apply BitVec.eq_of_toNat_eq
  rw [getPair_toNat, setPair, getSlot_setSlot_same, getSlot_setSlot_other _ _ _ _ (pair_low_ne_high p).symm,
    getSlot_setSlot_same, hi8_toNat, lo8_toNat]
  omega

/-! ## The flag byte (R26, R27) -/

@[simp] theorem setFlags_f (s : State) (x : Flags) : (setFlags s x).slots.f = packFlags x := rfl

theorem getSlot_setFlags (s : State) (x : Flags) (q : Slot) :
    getSlot (setFlags s x) q = if q = .f then packFlags x else getSlot s q := getSlot_setSlot s .f q _

/-- The flag byte as a number. -/
theorem packFlags_toNat (x : Flags) :
    (packFlags x).toNat =
      (if x.z then 128 else 0) + (if x.n then 64 else 0) + (if x.h then 32 else 0) + (if x.c then 16 else 0) := by
  obtain ⟨z, n, h, c⟩ := x
  cases z <;> cases n <;> cases h <;> cases c <;> decide

theorem packFlags_low (x : Flags) : (packFlags x).extractLsb' 0 4 = 0#4 := by
  obtain ⟨z, n, h, c⟩ := x
  cases z <;> cases n <;> cases h <;> cases c <;> decide

@[simp] theorem zeroFlag_setFlags (s : State) (x : Flags) : zeroFlag (setFlags s x) = x.z := by
  obtain ⟨z, n, h, c⟩ := x
  show (packFlags _).getLsbD 7 = z
  cases z <;> cases n <;> cases h <;> cases c <;> decide

@[simp] theorem carryFlag_setFlags (s : State) (x : Flags) : carryFlag (setFlags s x) = x.c := by
  obtain ⟨z, n, h, c⟩ := x
  show (packFlags _).getLsbD 4 = c
  cases z <;> cases n <;> cases h <;> cases c <;> decide

end Sys2Proof.Machine
end

