-- ==== Sys2Proof/Laws/Mmu.lean ====
section
/-! SUPPORT. The laws of the address map and of the byte accessors (20_memory.md): the map range by range, one inversion
lemma per accessor, and that a write is read back and moves nothing else. -/
namespace Sys2Proof.Machine

/-! ## The map, range by range (R53) -/

theorem map_romFixed (a : Word) (wb rb : Nat) (vb : Bool) (h : a.toNat ≤ 0x3FFF) :
    mapAddress a wb rb vb = .romFixed a.toNat := by
  simp (disch := omega) only [mapAddress, if_pos]

theorem map_romSwitch (a : Word) (wb rb : Nat) (vb : Bool) (h : 0x4000 ≤ a.toNat) (h' : a.toNat ≤ 0x7FFF) :
    mapAddress a wb rb vb = .romSwitch (a.toNat + (rb - 1) * Config.romBankSize) := by
  simp (disch := omega) only [mapAddress, if_pos, if_neg]

theorem map_videoRam (a : Word) (wb rb : Nat) (vb : Bool) (h : 0x8000 ≤ a.toNat) (h' : a.toNat ≤ 0x9FFF) :
    mapAddress a wb rb vb = .videoRam (a.toNat - (if vb then 0x8000 else 0x6000)) := by
  simp (disch := omega) only [mapAddress, if_pos, if_neg]

theorem map_externalRam (a : Word) (wb rb : Nat) (vb : Bool) (h : 0xA000 ≤ a.toNat) (h' : a.toNat ≤ 0xBFFF) :
    mapAddress a wb rb vb = .externalRam (a.toNat - 0xA000) := by
  simp (disch := omega) only [mapAddress, if_pos, if_neg]

theorem map_workFixed (a : Word) (wb rb : Nat) (vb : Bool) (h : 0xC000 ≤ a.toNat) (h' : a.toNat ≤ 0xCFFF) :
    mapAddress a wb rb vb = .workFixed (a.toNat - 0xC000) := by
  simp (disch := omega) only [mapAddress, if_pos, if_neg]

theorem map_workSwitch (a : Word) (wb rb : Nat) (vb : Bool) (h : 0xD000 ≤ a.toNat) (h' : a.toNat ≤ 0xDFFF) :
    mapAddress a wb rb vb = .workSwitch (a.toNat - 0xD000 + wb * Config.workBankSize) := by
  simp (disch := omega) only [mapAddress, if_pos, if_neg]

theorem map_illegalEcho (a : Word) (wb rb : Nat) (vb : Bool) (h : 0xE000 ≤ a.toNat) (h' : a.toNat ≤ 0xFDFF) :
    mapAddress a wb rb vb = .illegalEcho := by
  simp (disch := omega) only [mapAddress, if_pos, if_neg]

theorem map_oam (a : Word) (wb rb : Nat) (vb : Bool) (h : 0xFE00 ≤ a.toNat) (h' : a.toNat ≤ 0xFE9F) :
    mapAddress a wb rb vb = .oam (a.toNat - 0xFE00) := by
  simp (disch := omega) only [mapAddress, if_pos, if_neg]

theorem map_illegalGap (a : Word) (wb rb : Nat) (vb : Bool) (h : 0xFEA0 ≤ a.toNat) (h' : a.toNat ≤ 0xFEFF) :
    mapAddress a wb rb vb = .illegalGap := by
  simp (disch := omega) only [mapAddress, if_pos, if_neg]

theorem map_io (a : Word) (wb rb : Nat) (vb : Bool) (h : 0xFF00 ≤ a.toNat) (h' : a.toNat ≤ 0xFF7F) :
    mapAddress a wb rb vb = .io (a.toNat - 0xFF00) := by
  simp (disch := omega) only [mapAddress, if_pos, if_neg]

theorem map_highRam (a : Word) (wb rb : Nat) (vb : Bool) (h : 0xFF80 ≤ a.toNat) (h' : a.toNat ≤ 0xFFFE) :
    mapAddress a wb rb vb = .highRam (a.toNat - 0xFF80) := by
  simp (disch := omega) only [mapAddress, if_pos, if_neg]

theorem map_interruptEnable (a : Word) (wb rb : Nat) (vb : Bool) (h : a.toNat = 0xFFFF) :
    mapAddress a wb rb vb = .interruptEnable := by
  simp (disch := omega) only [mapAddress, if_neg]

/-! ## Inversion of the map: the range a descriptor comes from (R53) -/

/-- Everything `map` can answer, each with its range. -/
theorem map_cases (a : Word) (wb rb : Nat) (vb : Bool) :
    (a.toNat ≤ 0x3FFF ∧ mapAddress a wb rb vb = .romFixed a.toNat) ∨
    (0x4000 ≤ a.toNat ∧ a.toNat ≤ 0x7FFF ∧
      mapAddress a wb rb vb = .romSwitch (a.toNat + (rb - 1) * Config.romBankSize)) ∨
    (0x8000 ≤ a.toNat ∧ a.toNat ≤ 0x9FFF ∧
      mapAddress a wb rb vb = .videoRam (a.toNat - (if vb then 0x8000 else 0x6000))) ∨
    (0xA000 ≤ a.toNat ∧ a.toNat ≤ 0xBFFF ∧ mapAddress a wb rb vb = .externalRam (a.toNat - 0xA000)) ∨
    (0xC000 ≤ a.toNat ∧ a.toNat ≤ 0xCFFF ∧ mapAddress a wb rb vb = .workFixed (a.toNat - 0xC000)) ∨
    (0xD000 ≤ a.toNat ∧ a.toNat ≤ 0xDFFF ∧
      mapAddress a wb rb vb = .workSwitch (a.toNat - 0xD000 + wb * Config.workBankSize)) ∨
    (0xE000 ≤ a.toNat ∧ a.toNat ≤ 0xFDFF ∧ mapAddress a wb rb vb = .illegalEcho) ∨
    (0xFE00 ≤ a.toNat ∧ a.toNat ≤ 0xFE9F ∧ mapAddress a wb rb vb = .oam (a.toNat - 0xFE00)) ∨
    (0xFEA0 ≤ a.toNat ∧ a.toNat ≤ 0xFEFF ∧ mapAddress a wb rb vb = .illegalGap) ∨
    (0xFF00 ≤ a.toNat ∧ a.toNat ≤ 0xFF7F ∧ mapAddress a wb rb vb = .io (a.toNat - 0xFF00)) ∨
    (0xFF80 ≤ a.toNat ∧ a.toNat ≤ 0xFFFE ∧ mapAddress a wb rb vb = .highRam (a.toNat - 0xFF80)) ∨
    (a.toNat = 0xFFFF ∧ mapAddress a wb rb vb = .interruptEnable) := by
  have hlt := a.isLt
  rcases Nat.lt_or_ge 0x3FFF a.toNat with h | h
  swap; · exact .inl ⟨h, map_romFixed a wb rb vb h⟩
  rcases Nat.lt_or_ge 0x7FFF a.toNat with h1 | h1
  swap; · exact .inr (.inl ⟨h, h1, map_romSwitch a wb rb vb h h1⟩)
  rcases Nat.lt_or_ge 0x9FFF a.toNat with h2 | h2
  swap; · exact .inr (.inr (.inl ⟨h1, h2, map_videoRam a wb rb vb h1 h2⟩))
  rcases Nat.lt_or_ge 0xBFFF a.toNat with h3 | h3
  swap; · exact .inr (.inr (.inr (.inl ⟨h2, h3, map_externalRam a wb rb vb h2 h3⟩)))
  rcases Nat.lt_or_ge 0xCFFF a.toNat with h4 | h4
  swap; · exact .inr (.inr (.inr (.inr (.inl ⟨h3, h4, map_workFixed a wb rb vb h3 h4⟩))))
  rcases Nat.lt_or_ge 0xDFFF a.toNat with h5 | h5
  swap; · exact .inr (.inr (.inr (.inr (.inr (.inl ⟨h4, h5, map_workSwitch a wb rb vb h4 h5⟩)))))
  rcases Nat.lt_or_ge 0xFDFF a.toNat with h6 | h6
  swap; · exact .inr (.inr (.inr (.inr (.inr (.inr (.inl ⟨h5, h6, map_illegalEcho a wb rb vb h5 h6⟩))))))
  rcases Nat.lt_or_ge 0xFE9F a.toNat with h7 | h7
  swap; · exact .inr (.inr (.inr (.inr (.inr (.inr (.inr (.inl ⟨h6, h7, map_oam a wb rb vb h6 h7⟩)))))))
  rcases Nat.lt_or_ge 0xFEFF a.toNat with h8 | h8
  swap; · exact .inr (.inr (.inr (.inr (.inr (.inr (.inr (.inr (.inl ⟨h7, h8, map_illegalGap a wb rb vb h7 h8⟩))))))))
  rcases Nat.lt_or_ge 0xFF7F a.toNat with h9 | h9
  swap; · exact .inr (.inr (.inr (.inr (.inr (.inr (.inr (.inr (.inr (.inl ⟨h8, h9, map_io a wb rb vb h8 h9⟩)))))))))
  rcases Nat.lt_or_ge 0xFFFE a.toNat with h10 | h10
  swap
  · exact .inr (.inr (.inr (.inr (.inr (.inr (.inr (.inr (.inr (.inr (.inl
      ⟨h9, h10, map_highRam a wb rb vb h9 h10⟩))))))))))
  have h11 : a.toNat = 0xFFFF := by omega
  exact .inr (.inr (.inr (.inr (.inr (.inr (.inr (.inr (.inr (.inr (.inr
    ⟨h11, map_interruptEnable a wb rb vb h11⟩))))))))))

/-- The row an address stands in does not depend on the selectors (R37, R52). -/
theorem map_kind (a : Word) (wb rb wb' rb' : Nat) (vb vb' : Bool) :
    (mapAddress a wb rb vb).kind = (mapAddress a wb' rb' vb').kind := by
  simp only [mapAddress, apply_ite Region.kind]
  simp only [Region.kind]

/-! ## The state a region, a read and a write depend on -/

@[simp] theorem region_setSlot (s : State) (r : Slot) (v : Byte) (a : Word) : region (setSlot s r v) a = region s a := by
  simp [region]

@[simp] theorem region_setFlags (s : State) (x : Flags) (a : Word) : region (setFlags s x) a = region s a := rfl

@[simp] theorem region_setPc (s : State) (v a : Word) : region (setPc s v) a = region s a := rfl

@[simp] theorem region_setRunState (s : State) (v : RunState) (a : Word) : region (setRunState s v) a = region s a := rfl

@[simp] theorem region_setWork (s : State) (m : Memory) (a : Word) : region (setWork s m) a = region s a := rfl

/-- A read depends on the cartridge, the Work RAM and the selectors only (R37). -/
theorem readByte_congr (s t : State) (a : Word) (hc : t.cart = s.cart) (hw : t.work = s.work)
    (hr : region t a = region s a) : readByte t a = readByte s a := by
  simp only [readByte, hr, readCart, readWork, hc, hw]

@[simp] theorem readByte_setSlot (s : State) (r : Slot) (v : Byte) (a : Word) :
    readByte (setSlot s r v) a = readByte s a := readByte_congr _ _ _ (by simp) (by simp) (by simp)

@[simp] theorem readByte_setFlags (s : State) (x : Flags) (a : Word) : readByte (setFlags s x) a = readByte s a :=
  readByte_congr _ _ _ rfl rfl rfl

@[simp] theorem readByte_setPc (s : State) (v a : Word) : readByte (setPc s v) a = readByte s a :=
  readByte_congr _ _ _ rfl rfl rfl

@[simp] theorem readByte_setRunState (s : State) (v : RunState) (a : Word) :
    readByte (setRunState s v) a = readByte s a := readByte_congr _ _ _ rfl rfl rfl

/-! ## What a write can do (R59) -/

/-- The offset into `work` an address maps to, where it maps to Work RAM (R55). -/
theorem writeByte_ok_cases (s t : State) (a : Word) (v : Byte) (h : writeByte s a v = .ok t) :
    ∃ o, (region s a = .workFixed o ∨ region s a = .workSwitch o) ∧ o < Config.workSize ∧
      t = setWork s (Memory.write s.work o v) := by
  have key : ∀ o, writeWork s a o v = .ok t → o < Config.workSize ∧ t = setWork s (Memory.write s.work o v) := by
    intro o ho
    unfold writeWork at ho
    split at ho
    · next hlt => exact ⟨hlt, (Except.ok.inj ho).symm⟩
    · cases ho
  unfold writeByte at h
  split at h
  all_goals first
    | cases h
    | (next o hr => exact ⟨o, .inl hr, key o h⟩)
    | (next o hr => exact ⟨o, .inr hr, key o h⟩)

/-- A write that answers a state changes `work` alone. -/
theorem writeByte_ok_frame (s t : State) (a : Word) (v : Byte) (h : writeByte s a v = .ok t) :
    t = setWork s t.work := by
  obtain ⟨o, -, -, rfl⟩ := writeByte_ok_cases s t a v h
  rfl

/-- A write that answers a state was to C000–DFFF (R78). -/
theorem writeByte_ok_range (s t : State) (a : Word) (v : Byte) (h : writeByte s a v = .ok t) :
    0xC000 ≤ a.toNat ∧ a.toNat ≤ 0xDFFF := by
  obtain ⟨o, hr, -, -⟩ := writeByte_ok_cases s t a v h
  rcases map_cases a s.workBank s.romBank s.videoBank with
    h | h | h | h | h | h | h | h | h | h | h | h
  all_goals simp only [region] at hr
  all_goals first
    | omega
    | (obtain ⟨-, -, h⟩ := h; rw [h] at hr; simp at hr)
    | (obtain ⟨-, h⟩ := h; rw [h] at hr; simp at hr)

theorem writeByte_ok_wf (s t : State) (a : Word) (v : Byte) (hs : Memory.wf s.work) (h : writeByte s a v = .ok t) :
    Memory.wf t.work := by
  obtain ⟨o, -, ho, rfl⟩ := writeByte_ok_cases s t a v h
  exact Memory.write_wf _ _ _ hs ho

/-- Two addresses that map to one Work RAM offset are the same address, for a `workBank` of at least 1 (R55). -/
theorem region_work_inj (s : State) (a b : Word) (o : Nat) (hb : 1 ≤ s.workBank)
    (h1 : region s a = .workFixed o ∨ region s a = .workSwitch o)
    (h2 : region s b = .workFixed o ∨ region s b = .workSwitch o) : a = b := by
  have hoff : ∀ c : Word, region s c = .workFixed o ∨ region s c = .workSwitch o →
      (0xC000 ≤ c.toNat ∧ c.toNat ≤ 0xCFFF ∧ c.toNat = o + 0xC000) ∨
      (0xD000 ≤ c.toNat ∧ c.toNat ≤ 0xDFFF ∧ c.toNat + s.workBank * 0x1000 = o + 0xD000) := by
    intro c hc
    rcases map_cases c s.workBank s.romBank s.videoBank with
      h | h | h | h | h | h | h | h | h | h | h | h
    all_goals simp only [region] at hc
    all_goals first
      | (obtain ⟨h, h', e⟩ := h; rw [e] at hc; simp [Config.workBankSize] at hc; omega)
      | (obtain ⟨h, h', e⟩ := h; rw [e] at hc; simp at hc)
      | (obtain ⟨h, e⟩ := h; rw [e] at hc; simp at hc)
  apply BitVec.eq_of_toNat_eq
  rcases hoff a h1 with h | h <;> rcases hoff b h2 with h' | h' <;> omega

/-- The byte just written is read back (R70). -/
theorem readByte_writeByte_same (s t : State) (a : Word) (v : Byte) (hs : Memory.wf s.work)
    (h : writeByte s a v = .ok t) : readByte t a = .ok v := by
  obtain ⟨o, hr, ho, rfl⟩ := writeByte_ok_cases s t a v h
  have : readWork (setWork s (Memory.write s.work o v)) a o = .ok v := by
    simp [readWork, ho, Memory.read_write _ _ _ _ hs.1]
  unfold readByte
  rcases hr with hr | hr <;> rw [region_setWork, hr] <;> exact this

/-- Every other address reads as before (R59, R70). -/
theorem readByte_writeByte_other (s t : State) (a b : Word) (v : Byte) (hs : Memory.wf s.work) (hb : 1 ≤ s.workBank)
    (h : writeByte s a v = .ok t) (hab : b ≠ a) : readByte t b = readByte s b := by
  obtain ⟨o, hr, ho, rfl⟩ := writeByte_ok_cases s t a v h
  have key : ∀ p, (region s b = .workFixed p ∨ region s b = .workSwitch p) →
      readWork (setWork s (Memory.write s.work o v)) b p = readWork s b p := by
    intro p hp
    have hne : p ≠ o := by
      rintro rfl
      exact hab (region_work_inj s b a p hb hp hr)
    simp [readWork, Memory.read_write _ _ _ _ hs.1, hne]
  unfold readByte
  rw [region_setWork]
  split
  all_goals first
    | rfl
    | (next p hp => exact key p (.inl hp))
    | (next p hp => exact key p (.inr hp))

/-- Every byte of `work` but the one the address maps to is as before, in every bank (R59). -/
theorem writeByte_ok_work (s t : State) (a : Word) (v : Byte) (o : Nat) (hs : Memory.wf s.work)
    (h : writeByte s a v = .ok t) (hf : region s a ≠ .workFixed o) (hw : region s a ≠ .workSwitch o) :
    Memory.read t.work o = Memory.read s.work o := by
  obtain ⟨p, hr, -, rfl⟩ := writeByte_ok_cases s t a v h
  have hne : o ≠ p := by
    rintro rfl
    exact hr.elim hf hw
  rw [setWork_work, Memory.read_write _ _ _ _ hs.1, if_neg hne]

/-- A write of the byte that is there changes nothing. -/
theorem writeByte_readByte (s : State) (a : Word) (v : Byte) (hs : Memory.wf s.work) (hv : readByte s a = .ok v)
    (ha : 0xC000 ≤ a.toNat) : writeByte s a v = .ok s := by
  have key : ∀ o, readWork s a o = .ok v → writeWork s a o v = .ok s := by
    intro o ho
    unfold readWork at ho
    split at ho
    · next hlt =>
      have hv' := Except.ok.inj ho
      rw [writeWork, if_pos hlt, ← hv', Memory.write_read _ _ hs hlt]
      rfl
    · cases ho
  unfold readByte at hv
  unfold writeByte
  split at hv
  all_goals first
    | cases hv
    | (next o hr => rw [hr]; exact key o hv)
    | skip
  all_goals
    next o hr =>
      exfalso
      rcases map_cases a s.workBank s.romBank s.videoBank with
        h | h | h | h | h | h | h | h | h | h | h | h
      all_goals simp only [region] at hr
      all_goals first
        | omega
        | (obtain ⟨-, -, e⟩ := h; rw [e] at hr; cases hr)
        | (obtain ⟨-, e⟩ := h; rw [e] at hr; cases hr)

/-- The faults a read can raise (R58): never a read-only violation. -/
theorem readByte_not_readOnly (s : State) (a b : Word) : readByte s a ≠ .error (.readOnlyViolation b) := by
  unfold readByte readCart readWork
  split <;> (try split) <;> simp

/-- A write raises a read-only violation exactly at 0000–7FFF, with that address (R163). -/
theorem writeByte_readOnly_iff (s : State) (a b : Word) (v : Byte) :
    writeByte s a v = .error (.readOnlyViolation b) ↔ a.toNat ≤ 0x7FFF ∧ b = a := by
  rcases map_cases a s.workBank s.romBank s.videoBank with
    h | h | h | h | h | h | h | h | h | h | h | h
  all_goals first
    | obtain ⟨h1, h2, e⟩ := h
    | obtain ⟨h1, e⟩ := h
  all_goals
    unfold writeByte writeWork
    rw [region, e]
    simp only [Except.error.injEq, Fault.readOnlyViolation.injEq, reduceCtorEq, false_iff, not_and]
  all_goals first
    | (constructor
       · intro h; exact ⟨by omega, h.symm⟩
       · intro h; exact h.2.symm)
    | (intro h; omega)
    | (split <;> simp <;> omega)

/-! ## Where an access succeeds (R78) -/

theorem readByte_ok_range (s : State) (a : Word) (v : Byte) (h : readByte s a = .ok v) :
    a.toNat ≤ 0x7FFF ∨ (0xC000 ≤ a.toNat ∧ a.toNat ≤ 0xDFFF) := by
  rcases map_cases a s.workBank s.romBank s.videoBank with
    h' | h' | h' | h' | h' | h' | h' | h' | h' | h' | h' | h'
  all_goals first
    | omega
    | (obtain ⟨-, -, e⟩ := h'; simp [readByte, region, e] at h)
    | (obtain ⟨-, e⟩ := h'; simp [readByte, region, e] at h)

/-- Where Work RAM stands behind an address, it is read and written at one offset. -/
theorem workRam_accesses (s : State) (a : Word)
    (h : (0xC000 ≤ a.toNat ∧ a.toNat ≤ 0xCFFF) ∨
      (0xD000 ≤ a.toNat ∧ a.toNat ≤ 0xDFFF ∧ a.toNat - 0xD000 + s.workBank * 0x1000 < 0x40000)) :
    ∃ o, o < Config.workSize ∧ readByte s a = .ok (Memory.read s.work o) ∧
      ∀ v, writeByte s a v = .ok (setWork s (Memory.write s.work o v)) := by
  rcases h with ⟨h, h'⟩ | ⟨h, h', hlt⟩
  · refine ⟨a.toNat - 0xC000, by simp only [Config.workSize]; omega, ?_, fun v => ?_⟩
    · have : a.toNat - 0xC000 < 0x40000 := by omega
      simp only [readByte, region, map_workFixed a _ _ _ h h', readWork, Config.workSize, if_pos this]
    · have : a.toNat - 0xC000 < 0x40000 := by omega
      simp only [writeByte, region, map_workFixed a _ _ _ h h', writeWork, Config.workSize, if_pos this]
  · refine ⟨_, hlt, ?_, fun v => ?_⟩
    · simp only [readByte, region, map_workSwitch a _ _ _ h h', readWork, Config.workSize, Config.workBankSize, if_pos hlt]
    · simp only [writeByte, region, map_workSwitch a _ _ _ h h', writeWork, Config.workSize, Config.workBankSize,
        if_pos hlt]

/-! ## Reads of more than one byte (R64, R66) -/

theorem word_add_succ (a : Word) (i : Nat) : a + 1#16 + BitVec.ofNat 16 i = a + BitVec.ofNat 16 (i + 1) := by
  apply BitVec.eq_of_toNat_eq
  simp only [BitVec.toNat_add, BitVec.toNat_ofNat]
  omega

/-- A read of two bytes in one row of the table gives them, the lower address the low byte. -/
theorem readWord_ok (s : State) (a : Word) (lo hi : Byte) (h1 : readByte s a = .ok lo)
    (h2 : readByte s (a + 1#16) = .ok hi) (ha : a.toNat ≠ 0xFFFF)
    (hk : (region s a).kind = (region s (a + 1#16)).kind) : readWord s a = .ok (hi ++ lo) := by
  have hlt := a.isLt
  have h : readSized s a 2 = .ok [lo, hi] := by
    unfold readSized
    rw [if_neg]
    · simp only [readBytes, h1, h2]
    · rintro (h | h)
      · omega
      · exact h hk
  simp only [readWord, h, littleEndian_pair]

@[simp] theorem readBytes_setPc (s : State) (v : Word) (n : Nat) (a : Word) :
    readBytes (setPc s v) a n = readBytes s a n := by
  induction n generalizing a with
  | zero => rfl
  | succ n ih => simp only [readBytes, readByte_setPc, ih]

@[simp] theorem readWord_setPc (s : State) (v a : Word) : readWord (setPc s v) a = readWord s a := by
  simp only [readWord, readSized, region_setPc, readBytes_setPc]

end Sys2Proof.Machine
end

