-- ==== Sys2Proof/Laws/Exec.lean ====
section
/-! SUPPORT. The meanings by group, one lemma per shared operation that says everything it can do, and what a completed
instruction can have changed. -/
namespace Sys2Proof.Machine

/-! ## `exec` of each group is its shared handler -/

theorem exec_ld (y z : Reg8) (s : State) : exec (Instr.ld y z) s = move y z s := by cases y <;> cases z <;> rfl

theorem exec_inc (k : Reg8) (s : State) : exec (Instr.inc k) s = increment k s := by cases k <;> rfl

theorem exec_add (k : Reg8) (s : State) : exec (Instr.add k) s = accumulate add8 k s := by cases k <;> rfl

theorem exec_sub (k : Reg8) (s : State) : exec (Instr.sub k) s = accumulate sub8 k s := by cases k <;> rfl

theorem exec_xor (k : Reg8) (s : State) : exec (Instr.xor k) s = accumulate xor8 k s := by cases k <;> rfl

theorem exec_jpA16 (a : Word) (s : State) : exec (.jpA16 a) s = .next (setPc s a) := rfl

theorem exec_jrE8 (e : Byte) (s : State) : exec (.jrE8 e) s = .next (setPc s (relativeTarget s.pc e)) := rfl

theorem exec_jrNzE8 (e : Byte) (s : State) :
    exec (.jrNzE8 e) s = .next (if zeroFlag s then s else setPc s (relativeTarget s.pc e)) := by
  show Host.Outcome.next _ = _
  cases zeroFlag s <;> rfl

theorem exec_jrZE8 (e : Byte) (s : State) :
    exec (.jrZE8 e) s = .next (if zeroFlag s then setPc s (relativeTarget s.pc e) else s) := rfl

theorem exec_stop (s : State) : exec .stop s = .next (setRunState s .halted) := rfl

theorem exec_unimplemented (op : Byte) (s : State) :
    exec (.unimplemented op) s = .fault (.unimplementedOpcode op (s.pc - 1#16)) := rfl

/-! ## Operands (R14) -/

theorem operandSlot_ne_f (k : Reg8) (r : Slot) (h : operandSlot k = some r) : r ≠ .f := by
  cases k <;> simp only [operandSlot, Option.some.injEq, reduceCtorEq] at h <;> subst h <;> decide

theorem readOp_slot (k : Reg8) (r : Slot) (s : State) (h : operandSlot k = some r) : readOp k s = .ok (getSlot s r) := by
  simp [readOp, h]

theorem readOp_mhl (s : State) : readOp .mhl s = readByte s (hlAddress s) := rfl

theorem writeOp_slot (k : Reg8) (r : Slot) (v : Byte) (s : State) (h : operandSlot k = some r) :
    writeOp k v s = .ok (setSlot s r v) := by
  simp [writeOp, h]

theorem writeOp_mhl (v : Byte) (s : State) : writeOp .mhl v s = writeByte s (hlAddress s) v := rfl

/-- An operand code is a slot's or the memory operand's. -/
theorem operandSlot_cases (k : Reg8) : (∃ r, operandSlot k = some r) ∨ k = .mhl := by
  cases k <;> first | exact .inr rfl | exact .inl ⟨_, rfl⟩

/-! ## The shared handlers -/

theorem move_next (y z : Reg8) (s t : State) :
    move y z s = .next t ↔ ∃ v, readOp z s = .ok v ∧ writeOp y v s = .ok t := by
  unfold move finish raise
  cases hr : readOp z s with
  | error r => simp
  | ok v => cases hw : writeOp y v s <;> simp [hw]

theorem move_fault (y z : Reg8) (s : State) (r : Fault) :
    move y z s = .fault r ↔ readOp z s = .error r ∨ ∃ v, readOp z s = .ok v ∧ writeOp y v s = .error r := by
  unfold move finish raise
  cases hr : readOp z s with
  | error r => simp
  | ok v => cases hw : writeOp y v s <;> simp [hw]

theorem increment_next (k : Reg8) (s t : State) :
    increment k s = .next t ↔
      ∃ v u, readOp k s = .ok v ∧ writeOp k (inc8 v (carryFlag s)).result s = .ok u ∧
        t = setFlags u (inc8 v (carryFlag s)).flags := by
  unfold increment finish raise
  cases hr : readOp k s with
  | error r => simp
  | ok v => cases hw : writeOp k (inc8 v (carryFlag s)).result s <;> simp [hw, eq_comm]

theorem increment_fault (k : Reg8) (s : State) (r : Fault) :
    increment k s = .fault r ↔
      readOp k s = .error r ∨ ∃ v, readOp k s = .ok v ∧ writeOp k (inc8 v (carryFlag s)).result s = .error r := by
  unfold increment finish raise
  cases hr : readOp k s with
  | error r => simp
  | ok v => cases hw : writeOp k (inc8 v (carryFlag s)).result s <;> simp [hw]

theorem accumulate_next (f : Byte → Byte → AluResult) (k : Reg8) (s t : State) :
    accumulate f k s = .next t ↔
      ∃ v, readOp k s = .ok v ∧
        t = setFlags (setSlot s .a (f (getSlot s .a) v).result) (f (getSlot s .a) v).flags := by
  unfold accumulate finish raise
  cases hr : readOp k s <;> simp [eq_comm]

theorem accumulate_fault (f : Byte → Byte → AluResult) (k : Reg8) (s : State) (r : Fault) :
    accumulate f k s = .fault r ↔ readOp k s = .error r := by
  unfold accumulate finish raise
  cases hr : readOp k s <;> simp

/-! ## The flag derivations as numbers (R120 to R124) -/

theorem byte_eq_zero_iff (x : Byte) : (x == 0#8) = decide (x.toNat = 0) := by
  rw [Bool.eq_iff_iff, beq_iff_eq, decide_eq_true_iff, ← BitVec.toNat_inj]
  rfl

theorem packFlags_eq_ofNat (x : Flags) :
    packFlags x =
      BitVec.ofNat 8 ((if x.z then 128 else 0) + (if x.n then 64 else 0) + (if x.h then 32 else 0) +
        (if x.c then 16 else 0)) := by
  rw [← packFlags_toNat, BitVec.ofNat_toNat, BitVec.setWidth_eq]

theorem add8_result (a b : Byte) : (add8 a b).result = BitVec.ofNat 8 ((a.toNat + b.toNat) % 256) := by
  apply BitVec.eq_of_toNat_eq
  simp [add8]

theorem add8_flags (a b : Byte) :
    packFlags (add8 a b).flags =
      BitVec.ofNat 8 ((if (a.toNat + b.toNat) % 256 = 0 then 128 else 0) +
        (if 15 < a.toNat % 16 + b.toNat % 16 then 32 else 0) + (if 255 < a.toNat + b.toNat then 16 else 0)) := by
  have hz : (add8 a b).flags.z = decide ((a.toNat + b.toNat) % 256 = 0) := by
    show ((add8 a b).result == 0#8) = _
    rw [byte_eq_zero_iff, add8_result, BitVec.toNat_ofNat]
    simp
  have hn : (add8 a b).flags.n = false := rfl
  have hh : (add8 a b).flags.h = decide (15 < a.toNat % 16 + b.toNat % 16) := rfl
  have hc : (add8 a b).flags.c = decide (255 < a.toNat + b.toNat) := rfl
  rw [packFlags_eq_ofNat, hz, hn, hh, hc]
  simp only [decide_eq_true_eq, Bool.false_eq_true, if_false, Nat.add_zero]

theorem sub8_result (a b : Byte) : (sub8 a b).result = BitVec.ofNat 8 ((a.toNat + 256 - b.toNat) % 256) := by
  apply BitVec.eq_of_toNat_eq
  have := a.isLt
  have := b.isLt
  simp only [sub8, BitVec.toNat_sub, BitVec.toNat_ofNat]
  omega

theorem sub8_flags (a b : Byte) :
    packFlags (sub8 a b).flags =
      BitVec.ofNat 8 ((if a.toNat = b.toNat then 128 else 0) + 64 +
        (if a.toNat % 16 < b.toNat % 16 then 32 else 0) + (if a.toNat < b.toNat then 16 else 0)) := by
  have hz : (sub8 a b).flags.z = decide (a.toNat = b.toNat) := by
    show (a - b == 0#8) = _
    rw [byte_eq_zero_iff, decide_eq_decide, BitVec.toNat_sub]
    have := a.isLt
    have := b.isLt
    omega
  have hn : (sub8 a b).flags.n = true := rfl
  have hh : (sub8 a b).flags.h = decide (a.toNat % 16 < b.toNat % 16) := rfl
  have hc : (sub8 a b).flags.c = decide (a.toNat < b.toNat) := rfl
  rw [packFlags_eq_ofNat, hz, hn, hh, hc]
  simp only [decide_eq_true_eq, if_true]

theorem inc8_result (a : Byte) (c : Bool) : (inc8 a c).result = BitVec.ofNat 8 ((a.toNat + 1) % 256) := by
  apply BitVec.eq_of_toNat_eq
  simp [inc8]

theorem inc8_flags (a : Byte) (c : Bool) :
    packFlags (inc8 a c).flags =
      BitVec.ofNat 8 ((if a.toNat = 255 then 128 else 0) + (if a.toNat % 16 = 15 then 32 else 0) +
        (if c then 16 else 0)) := by
  have hz : (inc8 a c).flags.z = decide (a.toNat = 255) := by
    show (a + 1#8 == 0#8) = _
    rw [byte_eq_zero_iff, decide_eq_decide, BitVec.toNat_add]
    have := a.isLt
    have : (1#8).toNat = 1 := rfl
    omega
  have hn : (inc8 a c).flags.n = false := rfl
  have hh : (inc8 a c).flags.h = (a.toNat % 16 == 15) := rfl
  have hc : (inc8 a c).flags.c = c := rfl
  rw [packFlags_eq_ofNat, hz, hn, hh, hc]
  simp only [decide_eq_true_eq, beq_iff_eq, Bool.false_eq_true, if_false, Nat.add_zero]

theorem xor8_flags (a b : Byte) : packFlags (xor8 a b).flags = if a = b then 0x80#8 else 0x00#8 := by
  have hz : (xor8 a b).flags.z = decide (a = b) := by
    show (a ^^^ b == 0#8) = _
    rw [Bool.eq_iff_iff, beq_iff_eq, decide_eq_true_iff]
    exact BitVec.xor_eq_zero_iff
  have hn : (xor8 a b).flags.n = false := rfl
  have hh : (xor8 a b).flags.h = false := rfl
  have hc : (xor8 a b).flags.c = false := rfl
  rw [packFlags_eq_ofNat, hz, hn, hh, hc]
  by_cases h : a = b <;> simp [h]

/-! ## The target of a relative jump (R144) -/

theorem sext16_toNat (e : Byte) : (sext16 e).toNat = if e.toNat < 128 then e.toNat else e.toNat + 65280 := by
  have h := e.isLt
  unfold sext16
  rw [BitVec.toNat_signExtend]
  simp only [BitVec.toNat_setWidth, BitVec.msb_eq_decide]
  split <;> rename_i hc <;> simp at hc <;> split <;> omega

theorem relativeTarget_toInt (pc : Word) (e : Byte) :
    ((relativeTarget pc e).toNat : Int) = ((pc.toNat : Int) + e.toInt) % 65536 := by
  have h := e.isLt
  rw [relativeTarget, BitVec.toNat_add, sext16_toNat, BitVec.toInt_eq_toNat_cond]
  split <;> split <;> omega

/-! ## The cost (R96, R106) -/

theorem cycleCost_cases (i : Instr) (s : State) :
    (∃ op, i = .unimplemented op) ∨ cycleCost i s = 4 ∨ cycleCost i s = 8 ∨ cycleCost i s = 12 ∨ cycleCost i s = 16 := by
  cases i
  case unimplemented op => exact .inl ⟨op, rfl⟩
  case jrNzE8 => right; simp only [cycleCost]; split <;> simp
  case jrZE8 => right; simp only [cycleCost]; split <;> simp
  all_goals (right; simp only [cycleCost]; simp)

/-! ## What a completed instruction has done -/

/-- Everything a next state of `exec` can be, by the shape of the instruction. -/
theorem exec_next_cases (i : Instr) (s t : State) (h : exec i s = .next t) :
    (∃ y z r v, i = .ld y z ∧ operandSlot y = some r ∧ readOp z s = .ok v ∧ t = setSlot s r v) ∨
    (∃ z v, i = .ld .mhl z ∧ readOp z s = .ok v ∧ writeByte s (hlAddress s) v = .ok t) ∨
    (∃ k r, i = .inc k ∧ operandSlot k = some r ∧
      t = setFlags (setSlot s r (inc8 (getSlot s r) (carryFlag s)).result) (inc8 (getSlot s r) (carryFlag s)).flags) ∨
    (∃ v u, i = .incMhl ∧ readByte s (hlAddress s) = .ok v ∧
      writeByte s (hlAddress s) (inc8 v (carryFlag s)).result = .ok u ∧ t = setFlags u (inc8 v (carryFlag s)).flags) ∨
    (∃ (k : Reg8) (f : Byte → Byte → AluResult) (v : Byte), (i = .add k ∨ i = .sub k ∨ i = .xor k) ∧
      readOp k s = .ok v ∧
      t = setFlags (setSlot s .a (f (getSlot s .a) v).result) (f (getSlot s .a) v).flags) ∨
    (∃ e8, (i = .jpA16 t.pc ∨ i = .jrE8 e8 ∨ i = .jrNzE8 e8 ∨ i = .jrZE8 e8) ∧ t = setPc s t.pc) ∨
    (i = .stop ∧ t = setRunState s .halted) := by
  rcases i.shape with ⟨y, z, rfl⟩ | ⟨k, rfl⟩ | ⟨k, rfl⟩ | ⟨k, rfl⟩ | ⟨k, rfl⟩ | ⟨a, rfl⟩ | ⟨e, rfl⟩ | ⟨e, rfl⟩ | ⟨e, rfl⟩ |
    rfl | ⟨op, rfl⟩
  · rw [exec_ld, move_next] at h
    obtain ⟨v, hv, hw⟩ := h
    rcases operandSlot_cases y with ⟨r, hr⟩ | rfl
    · rw [writeOp_slot y r v s hr] at hw
      exact .inl ⟨y, z, r, v, rfl, hr, hv, (Except.ok.inj hw).symm⟩
    · exact .inr (.inl ⟨z, v, rfl, hv, hw⟩)
  · rw [exec_inc, increment_next] at h
    obtain ⟨v, u, hv, hw, rfl⟩ := h
    rcases operandSlot_cases k with ⟨r, hr⟩ | rfl
    · rw [readOp_slot k r s hr] at hv
      obtain rfl := Except.ok.inj hv
      rw [writeOp_slot k r _ s hr] at hw
      obtain rfl := Except.ok.inj hw
      exact .inr (.inr (.inl ⟨k, r, rfl, hr, rfl⟩))
    · exact .inr (.inr (.inr (.inl ⟨v, u, rfl, hv, hw, rfl⟩)))
  · rw [exec_add, accumulate_next] at h
    obtain ⟨v, hv, rfl⟩ := h
    exact .inr (.inr (.inr (.inr (.inl ⟨k, add8, v, .inl rfl, hv, rfl⟩))))
  · rw [exec_sub, accumulate_next] at h
    obtain ⟨v, hv, rfl⟩ := h
    exact .inr (.inr (.inr (.inr (.inl ⟨k, sub8, v, .inr (.inl rfl), hv, rfl⟩))))
  · rw [exec_xor, accumulate_next] at h
    obtain ⟨v, hv, rfl⟩ := h
    exact .inr (.inr (.inr (.inr (.inl ⟨k, xor8, v, .inr (.inr rfl), hv, rfl⟩))))
  · rw [exec_jpA16] at h
    obtain rfl := Host.Outcome.next.inj h
    exact .inr (.inr (.inr (.inr (.inr (.inl ⟨0, .inl rfl, rfl⟩)))))
  · rw [exec_jrE8] at h
    obtain rfl := Host.Outcome.next.inj h
    exact .inr (.inr (.inr (.inr (.inr (.inl ⟨e, .inr (.inl rfl), rfl⟩)))))
  · rw [exec_jrNzE8] at h
    obtain rfl := Host.Outcome.next.inj h
    refine .inr (.inr (.inr (.inr (.inr (.inl ⟨e, .inr (.inr (.inl rfl)), ?_⟩)))))
    split <;> rfl
  · rw [exec_jrZE8] at h
    obtain rfl := Host.Outcome.next.inj h
    refine .inr (.inr (.inr (.inr (.inr (.inl ⟨e, .inr (.inr (.inr rfl)), ?_⟩)))))
    split <;> rfl
  · exact .inr (.inr (.inr (.inr (.inr (.inr ⟨rfl, (Host.Outcome.next.inj h).symm⟩)))))
  · cases h

/-- No instruction writes `sp`, the cartridge or a selector (R30, R33, R36). -/
theorem exec_next_frame (i : Instr) (s t : State) (h : exec i s = .next t) :
    t.sp = s.sp ∧ t.cart = s.cart ∧ t.workBank = s.workBank ∧ t.romBank = s.romBank ∧ t.videoBank = s.videoBank := by
  rcases exec_next_cases i s t h with ⟨_, _, _, _, -, -, -, rfl⟩ | ⟨_, _, -, -, hw⟩ | ⟨_, _, -, -, rfl⟩ |
    ⟨_, u, -, -, hw, rfl⟩ | ⟨_, _, _, -, -, rfl⟩ | ⟨_, -, ht⟩ | ⟨-, rfl⟩
  · simp
  · rw [writeByte_ok_frame _ _ _ _ hw]
    simp
  · simp
  · simp only [setFlags_sp, setFlags_cart, setFlags_workBank, setFlags_romBank, setFlags_videoBank]
    rw [writeByte_ok_frame _ _ _ _ hw]
    simp
  · simp
  · rw [ht]
    simp
  · simp

/-- A completed instruction ends in HALTED if it is `STOP` and else leaves `run_state` as it was (R39). -/
theorem exec_next_runState (i : Instr) (s t : State) (h : exec i s = .next t) :
    (i = .stop ∧ t.runState = .halted) ∨ (i ≠ .stop ∧ t.runState = s.runState) := by
  rcases exec_next_cases i s t h with ⟨y, z, _, _, rfl, -, -, rfl⟩ | ⟨z, _, rfl, -, hw⟩ | ⟨k, _, rfl, -, rfl⟩ |
    ⟨_, u, rfl, -, hw, rfl⟩ | ⟨k, _, _, hi, -, rfl⟩ | ⟨_, hi, ht⟩ | ⟨rfl, rfl⟩
  · exact .inr ⟨by cases y <;> cases z <;> decide, by simp⟩
  · refine .inr ⟨by cases z <;> decide, ?_⟩
    rw [writeByte_ok_frame _ _ _ _ hw]
    simp
  · exact .inr ⟨by cases k <;> decide, by simp⟩
  · refine .inr ⟨by decide, ?_⟩
    rw [writeByte_ok_frame _ _ _ _ hw]
    simp
  · exact .inr ⟨by rcases hi with rfl | rfl | rfl <;> cases k <;> decide, by simp⟩
  · refine .inr ⟨by rcases hi with rfl | rfl | rfl | rfl <;> simp, ?_⟩
    rw [ht]
    simp
  · exact .inl ⟨rfl, by simp⟩

/-- No instruction is refused. -/
theorem exec_not_refused (i : Instr) (s : State) (r : Refusal) : exec i s ≠ .refused r := by
  have fin : ∀ x, finish x ≠ .refused r := by
    intro x
    cases x <;> simp [finish, raise]
  rcases i.shape with ⟨y, z, rfl⟩ | ⟨k, rfl⟩ | ⟨k, rfl⟩ | ⟨k, rfl⟩ | ⟨k, rfl⟩ | ⟨a, rfl⟩ | ⟨e, rfl⟩ | ⟨e, rfl⟩ | ⟨e, rfl⟩ |
    rfl | ⟨op, rfl⟩
  · rw [exec_ld]; exact fin _
  · rw [exec_inc]; exact fin _
  · rw [exec_add]; exact fin _
  · rw [exec_sub]; exact fin _
  · rw [exec_xor]; exact fin _
  all_goals first | exact fin _ | (intro h; cases h)

end Sys2Proof.Machine
end

