-- ==== Sys2Proof/Laws/PerInstr.lean ====
section
/-! SUPPORT. The per-instruction family `EncodedLength`: the number of bytes of a well-formed instruction is what its opcode
byte tells (R98), one lemma per constructor. -/
namespace Sys2Proof.Laws.EncodedLength

/-- Three bytes for 0xC3, two for 0x18, 0x20 and 0x28, one for every other opcode byte (R98). -/
def Statement (i : Instr) : Prop :=
  i.wf = true →
    (encode i).length = if i.opcode = 0xC3#8 then 3 else if i.opcode = 0x18#8 ∨ i.opcode = 0x20#8 ∨ i.opcode = 0x28#8 then 2 else 1

theorem incB : Statement .incB := fun _ => rfl

theorem incC : Statement .incC := fun _ => rfl

theorem stop : Statement .stop := fun _ => rfl

theorem incD : Statement .incD := fun _ => rfl

theorem jrE8 (e8 : Byte) : Statement (.jrE8 e8) := fun _ => rfl

theorem incE : Statement .incE := fun _ => rfl

theorem jrNzE8 (e8 : Byte) : Statement (.jrNzE8 e8) := fun _ => rfl

theorem incH : Statement .incH := fun _ => rfl

theorem jrZE8 (e8 : Byte) : Statement (.jrZE8 e8) := fun _ => rfl

theorem incL : Statement .incL := fun _ => rfl

theorem incMhl : Statement .incMhl := fun _ => rfl

theorem incA : Statement .incA := fun _ => rfl

theorem ldBB : Statement .ldBB := fun _ => rfl

theorem ldBC : Statement .ldBC := fun _ => rfl

theorem ldBD : Statement .ldBD := fun _ => rfl

theorem ldBE : Statement .ldBE := fun _ => rfl

theorem ldBH : Statement .ldBH := fun _ => rfl

theorem ldBL : Statement .ldBL := fun _ => rfl

theorem ldBMhl : Statement .ldBMhl := fun _ => rfl

theorem ldBA : Statement .ldBA := fun _ => rfl

theorem ldCB : Statement .ldCB := fun _ => rfl

theorem ldCC : Statement .ldCC := fun _ => rfl

theorem ldCD : Statement .ldCD := fun _ => rfl

theorem ldCE : Statement .ldCE := fun _ => rfl

theorem ldCH : Statement .ldCH := fun _ => rfl

theorem ldCL : Statement .ldCL := fun _ => rfl

theorem ldCMhl : Statement .ldCMhl := fun _ => rfl

theorem ldCA : Statement .ldCA := fun _ => rfl

theorem ldDB : Statement .ldDB := fun _ => rfl

theorem ldDC : Statement .ldDC := fun _ => rfl

theorem ldDD : Statement .ldDD := fun _ => rfl

theorem ldDE : Statement .ldDE := fun _ => rfl

theorem ldDH : Statement .ldDH := fun _ => rfl

theorem ldDL : Statement .ldDL := fun _ => rfl

theorem ldDMhl : Statement .ldDMhl := fun _ => rfl

theorem ldDA : Statement .ldDA := fun _ => rfl

theorem ldEB : Statement .ldEB := fun _ => rfl

theorem ldEC : Statement .ldEC := fun _ => rfl

theorem ldED : Statement .ldED := fun _ => rfl

theorem ldEE : Statement .ldEE := fun _ => rfl

theorem ldEH : Statement .ldEH := fun _ => rfl

theorem ldEL : Statement .ldEL := fun _ => rfl

theorem ldEMhl : Statement .ldEMhl := fun _ => rfl

theorem ldEA : Statement .ldEA := fun _ => rfl

theorem ldHB : Statement .ldHB := fun _ => rfl

theorem ldHC : Statement .ldHC := fun _ => rfl

theorem ldHD : Statement .ldHD := fun _ => rfl

theorem ldHE : Statement .ldHE := fun _ => rfl

theorem ldHH : Statement .ldHH := fun _ => rfl

theorem ldHL : Statement .ldHL := fun _ => rfl

theorem ldHMhl : Statement .ldHMhl := fun _ => rfl

theorem ldHA : Statement .ldHA := fun _ => rfl

theorem ldLB : Statement .ldLB := fun _ => rfl

theorem ldLC : Statement .ldLC := fun _ => rfl

theorem ldLD : Statement .ldLD := fun _ => rfl

theorem ldLE : Statement .ldLE := fun _ => rfl

theorem ldLH : Statement .ldLH := fun _ => rfl

theorem ldLL : Statement .ldLL := fun _ => rfl

theorem ldLMhl : Statement .ldLMhl := fun _ => rfl

theorem ldLA : Statement .ldLA := fun _ => rfl

theorem ldMhlB : Statement .ldMhlB := fun _ => rfl

theorem ldMhlC : Statement .ldMhlC := fun _ => rfl

theorem ldMhlD : Statement .ldMhlD := fun _ => rfl

theorem ldMhlE : Statement .ldMhlE := fun _ => rfl

theorem ldMhlH : Statement .ldMhlH := fun _ => rfl

theorem ldMhlL : Statement .ldMhlL := fun _ => rfl

theorem ldMhlMhl : Statement .ldMhlMhl := fun _ => rfl

theorem ldMhlA : Statement .ldMhlA := fun _ => rfl

theorem ldAB : Statement .ldAB := fun _ => rfl

theorem ldAC : Statement .ldAC := fun _ => rfl

theorem ldAD : Statement .ldAD := fun _ => rfl

theorem ldAE : Statement .ldAE := fun _ => rfl

theorem ldAH : Statement .ldAH := fun _ => rfl

theorem ldAL : Statement .ldAL := fun _ => rfl

theorem ldAMhl : Statement .ldAMhl := fun _ => rfl

theorem ldAA : Statement .ldAA := fun _ => rfl

theorem addAB : Statement .addAB := fun _ => rfl

theorem addAC : Statement .addAC := fun _ => rfl

theorem addAD : Statement .addAD := fun _ => rfl

theorem addAE : Statement .addAE := fun _ => rfl

theorem addAH : Statement .addAH := fun _ => rfl

theorem addAL : Statement .addAL := fun _ => rfl

theorem addAMhl : Statement .addAMhl := fun _ => rfl

theorem addAA : Statement .addAA := fun _ => rfl

theorem subAB : Statement .subAB := fun _ => rfl

theorem subAC : Statement .subAC := fun _ => rfl

theorem subAD : Statement .subAD := fun _ => rfl

theorem subAE : Statement .subAE := fun _ => rfl

theorem subAH : Statement .subAH := fun _ => rfl

theorem subAL : Statement .subAL := fun _ => rfl

theorem subAMhl : Statement .subAMhl := fun _ => rfl

theorem subAA : Statement .subAA := fun _ => rfl

theorem xorAB : Statement .xorAB := fun _ => rfl

theorem xorAC : Statement .xorAC := fun _ => rfl

theorem xorAD : Statement .xorAD := fun _ => rfl

theorem xorAE : Statement .xorAE := fun _ => rfl

theorem xorAH : Statement .xorAH := fun _ => rfl

theorem xorAL : Statement .xorAL := fun _ => rfl

theorem xorAMhl : Statement .xorAMhl := fun _ => rfl

theorem xorAA : Statement .xorAA := fun _ => rfl

theorem jpA16 (a16 : Word) : Statement (.jpA16 a16) := fun _ => rfl

theorem unimplemented (opcode : Byte) : Statement (.unimplemented opcode) := by
  have key : ∀ op : Byte, unimplementedByte op = true → ¬ (op = 0xC3#8 ∨ op = 0x18#8 ∨ op = 0x20#8 ∨ op = 0x28#8) := by decide
  intro h
  have hk := key opcode h
  simp only [not_or] at hk
  show 1 = if opcode = 0xC3#8 then 3 else if opcode = 0x18#8 ∨ opcode = 0x20#8 ∨ opcode = 0x28#8 then 2 else 1
  rw [if_neg hk.1, if_neg (fun h' => h'.elim hk.2.1 (fun h' => h'.elim hk.2.2.1 hk.2.2.2))]

end Sys2Proof.Laws.EncodedLength
end

