-- ==== Sys2Proof/Laws/Step.lean ====
section
/-! SUPPORT. What the fetch and the step can do (R102), each said once. -/
namespace Sys2Proof.Machine

theorem fetchByte_ok (s : State) (b : Byte) (h : readByte s s.pc = .ok b) :
    fetchByte s = .ok (b, setPc s (s.pc + 1#16)) := by
  simp [fetchByte, h]

theorem fetchByte_error (s : State) (r : Fault) (h : readByte s s.pc = .error r) : fetchByte s = .error r := by
  simp [fetchByte, h]

/-- A fetch that answers read the byte at `pc` and moved `pc` alone (R65). -/
theorem fetchByte_cases (s t : State) (b : Byte) (h : fetchByte s = .ok (b, t)) :
    readByte s s.pc = .ok b ∧ t = setPc s (s.pc + 1#16) := by
  unfold fetchByte at h
  split at h
  · cases h
  · next v hv =>
    simp only [Except.ok.injEq, Prod.mk.injEq] at h
    exact ⟨by rw [hv, h.1], h.2.symm⟩

/-- An instruction that is fetched: its opcode stands at `pc`, and `pc` alone has moved (R104). -/
theorem fetchInstr_cases (s t : State) (i : Instr) (h : fetchInstr s = .ok (i, t)) :
    ∃ op, readByte s s.pc = .ok op ∧ i.opcode = op ∧ i.wf = true ∧ t = setPc s t.pc := by
  unfold fetchInstr at h
  split at h
  · cases h
  · next op s1 h1 =>
    obtain ⟨hop, rfl⟩ := fetchByte_cases _ _ _ h1
    refine ⟨op, hop, ?_⟩
    rcases decodeOpcode_cases op with ⟨j, hj, hwf, hjop, -⟩ | ⟨rfl, hd⟩ | ⟨rfl, hd⟩ | ⟨rfl, hd⟩ | ⟨rfl, hd⟩
    · rw [hj] at h
      simp only [Except.ok.injEq, Prod.mk.injEq] at h
      obtain ⟨rfl, rfl⟩ := h
      exact ⟨hjop, hwf, rfl⟩
    all_goals
      rw [hd] at h
      simp only at h
      split at h
      · cases h
    all_goals
      next hb =>
      simp only [Except.ok.injEq, Prod.mk.injEq] at h
      obtain ⟨rfl, rfl⟩ := h
      first
        | exact ⟨rfl, rfl, rfl⟩
        | (obtain ⟨-, rfl⟩ := fetchByte_cases _ _ _ hb
           exact ⟨rfl, rfl, rfl⟩)

/-- The fetch of an instruction without operand bytes (R104). -/
theorem fetchInstr_o (s : State) (op : Byte) (i : Instr) (h : readByte s s.pc = .ok op)
    (hd : decodeOpcode op = .o i) : fetchInstr s = .ok (i, setPc s (s.pc + 1#16)) := by
  simp only [fetchInstr, fetchByte_ok s op h, hd]

theorem word_add_two (a : Word) : a + 1#16 + 1#16 = a + 2#16 := by
  rw [BitVec.add_assoc]
  rfl

/-- The fetch of an instruction with a displacement byte (R94). -/
theorem fetchInstr_oe (s : State) (op e8 : Byte) (mk : Byte → Instr) (h : readByte s s.pc = .ok op)
    (hd : decodeOpcode op = .oe mk) (he : readByte s (s.pc + 1#16) = .ok e8) :
    fetchInstr s = .ok (mk e8, setPc s (s.pc + 2#16)) := by
  simp only [fetchInstr, fetchByte_ok s op h, hd]
  rw [fetchByte_ok (setPc s (s.pc + 1#16)) e8 (by rw [readByte_setPc, setPc_pc, he]), setPc_pc, word_add_two]
  rfl

/-- The fetch of `JP` (R94, R140): the address is read behind the opcode, and `pc` stays one past the opcode. -/
theorem fetchInstr_jp (s : State) (h : readByte s s.pc = .ok 0xC3#8) :
    fetchInstr s = (match readWord s (s.pc + 1#16) with
      | .error r => .error r
      | .ok a16 => .ok (.jpA16 a16, setPc s (s.pc + 1#16))) := by
  cases hw : readWord s (s.pc + 1#16) <;>
    simp only [fetchInstr, fetchByte_ok s _ h, decodeOpcode_jp, readWord_setPc, setPc_pc, hw]

theorem step_running (s : State) (h : s.runState = .running) :
    step s = (match fetchInstr s with
      | .error r => .fault r
      | .ok (i, t) => exec i t) := by
  unfold step stepCosted runInstr interruptCheck
  rw [h]
  cases fetchInstr s with
  | error r => rfl
  | ok p =>
    obtain ⟨i, t⟩ := p
    simp only
    cases exec i t <;> rfl

/-- The cost of a step that completes is its instruction's, in the state `exec` starts in (R102, R106). -/
theorem stepCosted_running (s t u : State) (i : Instr) (h : s.runState = .running) (hf : fetchInstr s = .ok (i, t))
    (he : exec i t = .next u) : stepCosted s = .next (u, cycleCost i t) := by
  simp only [stepCosted, h, runInstr, interruptCheck, hf, he]

theorem step_halted (s : State) (h : s.runState = .halted) : step s = .next s := by
  simp [step, stepCosted, h, interruptCheck]

theorem step_faulted (s : State) (h : s.runState = .faulted) : step s = .refused .stepInFaulted := by
  simp [step, stepCosted, h]

/-- Everything a step that completes can have done (R102, R107): nothing, in HALTED, or one fetched instruction. -/
theorem step_next_cases (s t : State) (h : step s = .next t) :
    (s.runState = .halted ∧ t = s) ∨
    (s.runState = .running ∧ ∃ i op pc, readByte s s.pc = .ok op ∧ i.opcode = op ∧ i.wf = true ∧
      fetchInstr s = .ok (i, setPc s pc) ∧ exec i (setPc s pc) = .next t) := by
  cases hr : s.runState with
  | halted =>
    rw [step_halted s hr] at h
    exact .inl ⟨rfl, (Host.Outcome.next.inj h).symm⟩
  | faulted =>
    rw [step_faulted s hr] at h
    cases h
  | running =>
    rw [step_running s hr] at h
    split at h
    · cases h
    · next i u hf =>
      obtain ⟨op, hop, hi, hwf, hu⟩ := fetchInstr_cases _ _ _ hf
      exact .inr ⟨rfl, i, op, u.pc, hop, hi, hwf, by rw [← hu]; exact hf, by rw [← hu]; exact h⟩

/-- Everything a step that faults can have done (R168): a fault of the fetch, or of the fetched instruction. -/
theorem step_fault_cases (s : State) (r : Fault) (h : step s = .fault r) :
    s.runState = .running ∧
      (fetchInstr s = .error r ∨ ∃ i op pc, readByte s s.pc = .ok op ∧ i.opcode = op ∧
        fetchInstr s = .ok (i, setPc s pc) ∧ exec i (setPc s pc) = .fault r) := by
  cases hr : s.runState with
  | halted => rw [step_halted s hr] at h; cases h
  | faulted => rw [step_faulted s hr] at h; cases h
  | running =>
    refine ⟨rfl, ?_⟩
    rw [step_running s hr] at h
    split at h
    · next r' hf =>
      left
      rw [hf]
      cases h
      rfl
    · next i u hf =>
      obtain ⟨op, hop, hi, -, hu⟩ := fetchInstr_cases _ _ _ hf
      exact .inr ⟨i, op, u.pc, hop, hi, by rw [← hu]; exact hf, by rw [← hu]; exact h⟩

/-- The costed step and the step agree on the state. -/
theorem step_of_stepCosted (s t : State) (n : Nat) (h : stepCosted s = .next (t, n)) : step s = .next t := by
  simp [step, h]

end Sys2Proof.Machine
end

