-- ==== Sys2Proof/Tests/Slice0.lean ====
section
/-! SUPPORT. The model's own tests. Expected results are the spec's: the opcode map (R96), the vectors of
95_test_vectors.md by their ids, and the ranges of R52 and R97. `witness_<Name>` gives inputs that meet the hypotheses of
`Obligations.<Name>`. -/
namespace Sys2Proof.Tests
open Sys2Proof Sys2Proof.Machine

/-! ## Helpers -/

/-- The zeroed register file (R42). -/
def zero : Slots := { b := 0x00, c := 0x00, d := 0x00, e := 0x00, h := 0x00, l := 0x00, f := 0x00, a := 0x00 }

/-- The launch state (R195) but for the slots, the Work RAM and `pc`; the cartridge is just long enough for `bytes` at
`pc`. -/
def launched (pc : Word) (bytes : List Byte) (slots : Slots := zero) (work : Memory := []) : State :=
  { State.construct work with slots := slots, pc := pc, cart := patchCart [] pc.toNat bytes }

/-- One step returns `cost` and changes the slots, `pc` and the Work RAM to those given, and nothing else. -/
def ends (s : State) (cost : Nat) (pc : Word) (slots : Slots := s.slots) (work : Memory := s.work) : Bool :=
  match stepCosted s with
  | .next (t, n) => n == cost && t == { s with slots := slots, pc := pc, work := work }
  | _ => false

/-- One step faults with the report `r`. -/
def faults (s : State) (r : Fault) : Bool :=
  match step s with
  | .fault q => q == r
  | _ => false

/-! ## Well-formed terms -/

/-- The one check of `Instr.wf` refuses an admitted opcode byte under the default row. -/
theorem test_wf_refuses :
    (Instr.unimplemented 0x04).wf = false ∧ (Instr.unimplemented 0x76).wf = false ∧
    (Instr.unimplemented 0xC3).wf = false ∧ (Instr.unimplemented 0x90).wf = false := by decide

theorem test_wf_accepts :
    (Instr.unimplemented 0x00).wf = true ∧ (Instr.unimplemented 0xFF).wf = true ∧
    (Instr.jpA16 0xFFFF).wf = true ∧ (Instr.jrE8 0x80).wf = true ∧ Instr.ldMhlMhl.wf = true := by decide

/-- 155 bytes have no handler (R97). -/
theorem test_wf_counts :
    (((List.range 256).map (BitVec.ofNat 8)).filter unimplementedByte).length = 155 := by decide +kernel

/-! ## Every constructor's decoding, from bytes written out by R96 -/

theorem test_decode_inc :
    [0b00000100, 0b00001100, 0b00010100, 0b00011100, 0b00100100, 0b00101100, 0b00110100, 0b00111100].map
      (fun op : Byte => decode [op]) =
    [.ok (.incB, []), .ok (.incC, []), .ok (.incD, []), .ok (.incE, []), .ok (.incH, []), .ok (.incL, []),
      .ok (.incMhl, []), .ok (.incA, [])] := by decide

theorem test_decode_ld_b :
    [0b01000000, 0b01000001, 0b01000010, 0b01000011, 0b01000100, 0b01000101, 0b01000110, 0b01000111].map
      (fun op : Byte => decode [op]) =
    [.ok (.ldBB, []), .ok (.ldBC, []), .ok (.ldBD, []), .ok (.ldBE, []), .ok (.ldBH, []), .ok (.ldBL, []),
      .ok (.ldBMhl, []), .ok (.ldBA, [])] := by decide

theorem test_decode_ld_c :
    [0b01001000, 0b01001001, 0b01001010, 0b01001011, 0b01001100, 0b01001101, 0b01001110, 0b01001111].map
      (fun op : Byte => decode [op]) =
    [.ok (.ldCB, []), .ok (.ldCC, []), .ok (.ldCD, []), .ok (.ldCE, []), .ok (.ldCH, []), .ok (.ldCL, []),
      .ok (.ldCMhl, []), .ok (.ldCA, [])] := by decide

theorem test_decode_ld_d :
    [0b01010000, 0b01010001, 0b01010010, 0b01010011, 0b01010100, 0b01010101, 0b01010110, 0b01010111].map
      (fun op : Byte => decode [op]) =
    [.ok (.ldDB, []), .ok (.ldDC, []), .ok (.ldDD, []), .ok (.ldDE, []), .ok (.ldDH, []), .ok (.ldDL, []),
      .ok (.ldDMhl, []), .ok (.ldDA, [])] := by decide

theorem test_decode_ld_e :
    [0b01011000, 0b01011001, 0b01011010, 0b01011011, 0b01011100, 0b01011101, 0b01011110, 0b01011111].map
      (fun op : Byte => decode [op]) =
    [.ok (.ldEB, []), .ok (.ldEC, []), .ok (.ldED, []), .ok (.ldEE, []), .ok (.ldEH, []), .ok (.ldEL, []),
      .ok (.ldEMhl, []), .ok (.ldEA, [])] := by decide

theorem test_decode_ld_h :
    [0b01100000, 0b01100001, 0b01100010, 0b01100011, 0b01100100, 0b01100101, 0b01100110, 0b01100111].map
      (fun op : Byte => decode [op]) =
    [.ok (.ldHB, []), .ok (.ldHC, []), .ok (.ldHD, []), .ok (.ldHE, []), .ok (.ldHH, []), .ok (.ldHL, []),
      .ok (.ldHMhl, []), .ok (.ldHA, [])] := by decide

theorem test_decode_ld_l :
    [0b01101000, 0b01101001, 0b01101010, 0b01101011, 0b01101100, 0b01101101, 0b01101110, 0b01101111].map
      (fun op : Byte => decode [op]) =
    [.ok (.ldLB, []), .ok (.ldLC, []), .ok (.ldLD, []), .ok (.ldLE, []), .ok (.ldLH, []), .ok (.ldLL, []),
      .ok (.ldLMhl, []), .ok (.ldLA, [])] := by decide

theorem test_decode_ld_mhl :
    [0b01110000, 0b01110001, 0b01110010, 0b01110011, 0b01110100, 0b01110101, 0b01110110, 0b01110111].map
      (fun op : Byte => decode [op]) =
    [.ok (.ldMhlB, []), .ok (.ldMhlC, []), .ok (.ldMhlD, []), .ok (.ldMhlE, []), .ok (.ldMhlH, []),
      .ok (.ldMhlL, []), .ok (.ldMhlMhl, []), .ok (.ldMhlA, [])] := by decide

theorem test_decode_ld_a :
    [0b01111000, 0b01111001, 0b01111010, 0b01111011, 0b01111100, 0b01111101, 0b01111110, 0b01111111].map
      (fun op : Byte => decode [op]) =
    [.ok (.ldAB, []), .ok (.ldAC, []), .ok (.ldAD, []), .ok (.ldAE, []), .ok (.ldAH, []), .ok (.ldAL, []),
      .ok (.ldAMhl, []), .ok (.ldAA, [])] := by decide

theorem test_decode_add :
    [0b10000000, 0b10000001, 0b10000010, 0b10000011, 0b10000100, 0b10000101, 0b10000110, 0b10000111].map
      (fun op : Byte => decode [op]) =
    [.ok (.addAB, []), .ok (.addAC, []), .ok (.addAD, []), .ok (.addAE, []), .ok (.addAH, []), .ok (.addAL, []),
      .ok (.addAMhl, []), .ok (.addAA, [])] := by decide

theorem test_decode_sub :
    [0b10010000, 0b10010001, 0b10010010, 0b10010011, 0b10010100, 0b10010101, 0b10010110, 0b10010111].map
      (fun op : Byte => decode [op]) =
    [.ok (.subAB, []), .ok (.subAC, []), .ok (.subAD, []), .ok (.subAE, []), .ok (.subAH, []), .ok (.subAL, []),
      .ok (.subAMhl, []), .ok (.subAA, [])] := by decide

theorem test_decode_xor :
    [0b10101000, 0b10101001, 0b10101010, 0b10101011, 0b10101100, 0b10101101, 0b10101110, 0b10101111].map
      (fun op : Byte => decode [op]) =
    [.ok (.xorAB, []), .ok (.xorAC, []), .ok (.xorAD, []), .ok (.xorAE, []), .ok (.xorAH, []), .ok (.xorAL, []),
      .ok (.xorAMhl, []), .ok (.xorAA, [])] := by decide

theorem test_decode_operands :
    decode [0b00011000, 0xFE] = .ok (.jrE8 0xFE, []) ∧
    decode [0b00100000, 0xFD] = .ok (.jrNzE8 0xFD, []) ∧
    decode [0b00101000, 0x02] = .ok (.jrZE8 0x02, []) ∧
    decode [0b11000011, 0x34, 0xC2] = .ok (.jpA16 0xC234, []) ∧
    decode [0b00010000, 0x00] = .ok (.stop, [0x00]) := by decide

/-- R97, and V-DEC30, V-DEC3D, V-DEC88, V-DECB8: no neighbour takes a byte without a handler. -/
theorem test_decode_unimplemented :
    [0b00110000, 0b00111101, 0b10001000, 0b10111000, 0b11001011].map (fun op : Byte => decode [op]) =
    [.ok (.unimplemented 0x30, []), .ok (.unimplemented 0x3D, []), .ok (.unimplemented 0x88, []),
      .ok (.unimplemented 0xB8, []), .ok (.unimplemented 0xCB, [])] := by decide

theorem test_decode_refuses :
    decode [] = .error .noOpcode ∧ decode [0xC3, 0x50] = .error (.operandMissing 0xC3) ∧
    decode [0x18] = .error (.operandMissing 0x18) := by decide

theorem test_decodeTableWord :
    decodeTableWord 8 0x7F = some .ldAA ∧ decodeTableWord 8 0xC3 = some (.jpA16 0) ∧
    decodeTableWord 24 0x0150C3 = some (.jpA16 0x0150) ∧ decodeTableWord 16 0xFD20 = some (.jrNzE8 0xFD) := by decide

/-- The program is placed at the entry point's bank, and the next step runs it, from reset and from a `pc` at which no
instruction could stand. -/
theorem test_withFetchWord :
    step (State.reset.withFetchWord 8 0x04) =
      .next { State.reset with slots := { zero with b := 0x01 }, pc := 0x0001, cart := [0x04, 0x00, 0x00] } ∧
    ((match step ({ State.reset with pc := 0xFFFF, runState := .halted }.withFetchWord 8 0x10) with
      | .next t => t.pc == 0x0101 && t.runState == .halted
      | _ => false) = true) := by
  refine ⟨by rfl, by decide⟩

/-! ## Map and ports (M1 to M33, RP1 to RP7) -/

theorem test_map_rom :
    mapAddress 0x3FFF 1 1 false = .romFixed 0x3FFF ∧ mapAddress 0x1234 7 9 true = .romFixed 0x1234 ∧
    mapAddress 0x4000 1 1 false = .romSwitch 0x4000 ∧ mapAddress 0x4000 1 2 false = .romSwitch 0x8000 ∧
    mapAddress 0x5ABC 1 3 false = .romSwitch 0xDABC ∧ mapAddress 0x7FFF 1 64 false = .romSwitch 0x103FFF := by decide

theorem test_map_ram :
    mapAddress 0x8000 1 1 false = .videoRam 0x2000 ∧ mapAddress 0x8000 1 1 true = .videoRam 0 ∧
    mapAddress 0x9FFF 1 1 true = .videoRam 0x1FFF ∧ mapAddress 0xBFFF 1 1 false = .externalRam 0x1FFF ∧
    mapAddress 0xCFFF 5 1 false = .workFixed 0xFFF ∧ mapAddress 0xD000 1 1 false = .workSwitch 0x1000 ∧
    mapAddress 0xD123 7 1 false = .workSwitch 0x7123 ∧ mapAddress 0xD000 64 1 false = .workSwitch 0x40000 := by decide

theorem test_map_rest :
    mapAddress 0xE000 1 1 false = .illegalEcho ∧ mapAddress 0xFDFF 1 1 false = .illegalEcho ∧
    mapAddress 0xFE00 1 1 false = .oam 0 ∧ mapAddress 0xFE9F 1 1 false = .oam 0x9F ∧
    mapAddress 0xFEA0 1 1 false = .illegalGap ∧ mapAddress 0xFEFF 1 1 false = .illegalGap ∧
    mapAddress 0xFF7F 1 1 false = .io 0x7F ∧ mapAddress 0xFF80 1 1 false = .highRam 0 ∧
    mapAddress 0xFFFE 1 1 false = .highRam 0x7E ∧ mapAddress 0xFFFF 1 1 false = .interruptEnable := by decide

theorem test_pairs :
    getPair (launched 0 [] { zero with b := 0x12, c := 0x34 }) .bc = 0x1234 ∧
    (setPair State.reset .hl 0xC0DE).slots = { zero with h := 0xC0, l := 0xDE } ∧
    getPair (launched 0 [] { zero with a := 0xB4, f := 0x20 }) .af = 0xB420 ∧
    (setPair State.reset .de 0x00FF).slots = { zero with e := 0xFF } := by decide

theorem test_flag_queries :
    zeroFlag (launched 0 [] { zero with f := 0x90 }) = true ∧ carryFlag (launched 0 [] { zero with f := 0x90 }) = true ∧
    zeroFlag (launched 0 [] { zero with f := 0x60 }) = false ∧
    carryFlag (launched 0 [] { zero with f := 0x60 }) = false := by decide

/-! ## One step of each group (V-LD, V-INC, V-ADD, V-SUB, V-XOR, V-JP, V-JR, V-ST, V-UN) -/

/-- V-LD1 to V-LD5. -/
theorem test_ld_slots :
    ends (launched 0x0100 [0x41] { zero with c := 0x7E }) 4 0x0101 { zero with b := 0x7E, c := 0x7E } = true ∧
    ends (launched 0x0100 [0x78] { zero with b := 0x12, a := 0xFF, f := 0xF0 }) 4 0x0101
      { zero with b := 0x12, a := 0x12, f := 0xF0 } = true ∧
    ends (launched 0x0100 [0x7F] { zero with a := 0x33 }) 4 0x0101 = true ∧
    ends (launched 0x0100 [0x65] { zero with h := 0x12, l := 0x34 }) 4 0x0101 { zero with h := 0x34, l := 0x34 } = true ∧
    ends (launched 0x0100 [0x6C] { zero with h := 0x12, l := 0x34 }) 4 0x0101 { zero with h := 0x12, l := 0x12 } = true := by
  decide +kernel

/-- V-LD6 to V-LD10: the address is the old HL, also where H or L is the destination. -/
theorem test_ld_from_memory :
    ends (launched 0x0100 [0x46] { zero with h := 0xC1, l := 0x23 } [(0x0123, 0x9A)]) 8 0x0101
      { zero with h := 0xC1, l := 0x23, b := 0x9A } = true ∧
    ends (launched 0x0100 [0x7E, 0xAB] { zero with h := 0x01, l := 0x01 }) 8 0x0101
      { zero with h := 0x01, l := 0x01, a := 0xAB } = true ∧
    ends (launched 0x0100 [0x66] { zero with h := 0xC0, l := 0x10 } [(0x0010, 0xD0)]) 8 0x0101
      { zero with h := 0xD0, l := 0x10 } = true ∧
    ends (launched 0x0100 [0x6E] { zero with h := 0xC0, l := 0x10 } [(0x0010, 0x77)]) 8 0x0101
      { zero with h := 0xC0, l := 0x77 } = true ∧
    ends (launched 0x0100 [0x5E] { zero with h := 0xD0, l := 0x00 } [(0x1000, 0x42)]) 8 0x0101
      { zero with h := 0xD0, e := 0x42 } = true := by decide +kernel

/-- V-LD11 to V-LD15. -/
theorem test_ld_to_memory :
    ends (launched 0x0100 [0x70] { zero with h := 0xC0, b := 0x5A }) 8 0x0101 { zero with h := 0xC0, b := 0x5A }
      [(0x0000, 0x5A)] = true ∧
    ends (launched 0x0100 [0x77] { zero with h := 0xDF, l := 0xFF, a := 0xA5 }) 8 0x0101
      { zero with h := 0xDF, l := 0xFF, a := 0xA5 } [(0x1FFF, 0xA5)] = true ∧
    ends (launched 0x0100 [0x74] { zero with h := 0xC2, l := 0x34 }) 8 0x0101 { zero with h := 0xC2, l := 0x34 }
      [(0x0234, 0xC2)] = true ∧
    ends (launched 0x0100 [0x75] { zero with h := 0xC2, l := 0x34 }) 8 0x0101 { zero with h := 0xC2, l := 0x34 }
      [(0x0234, 0x34)] = true ∧
    ends (launched 0x0100 [0x76] { zero with h := 0xC0, l := 0x05 } [(0x0005, 0x3C)]) 8 0x0101 = true := by decide +kernel

/-- V-LD16 to V-LD22. -/
theorem test_ld_faults :
    faults (launched 0x0100 [0x76] { zero with h := 0x01 }) (.readOnlyViolation 0x0100) = true ∧
    faults (launched 0x0100 [0x76] { zero with h := 0xE0 }) (.illegalAddress 0xE000) = true ∧
    faults (launched 0x0100 [0x70] { zero with h := 0x40, b := 0x01 }) (.readOnlyViolation 0x4000) = true ∧
    faults (launched 0x0100 [0x7E] { zero with h := 0xA0 }) (.unimplementedRegion 0xA000 .externalRam) = true ∧
    faults (launched 0x0100 [0x77] { zero with h := 0xFF, l := 0x80, a := 0x01 })
      (.unimplementedRegion 0xFF80 .highRam) = true ∧
    faults (launched 0x0100 [0x4E] { zero with h := 0xFF, l := 0xFF })
      (.unimplementedRegion 0xFFFF .interruptEnable) = true ∧
    faults (launched 0x0100 [0x46] { zero with h := 0x20 }) (.backingOutOfRange 0x2000 0x2000) = true := by decide +kernel

/-- V-INC1 to V-INC7. -/
theorem test_inc_slots :
    ends (launched 0x0100 [0x04]) 4 0x0101 { zero with b := 0x01 } = true ∧
    ends (launched 0x0100 [0x0C] { zero with c := 0x0F }) 4 0x0101 { zero with c := 0x10, f := 0x20 } = true ∧
    ends (launched 0x0100 [0x14] { zero with d := 0xFF }) 4 0x0101 { zero with d := 0x00, f := 0xA0 } = true ∧
    ends (launched 0x0100 [0x1C] { zero with e := 0xFF, f := 0x10 }) 4 0x0101 { zero with e := 0x00, f := 0xB0 } = true ∧
    ends (launched 0x0100 [0x24] { zero with h := 0x7F, f := 0xF0 }) 4 0x0101 { zero with h := 0x80, f := 0x30 } = true ∧
    ends (launched 0x0100 [0x2C] { zero with l := 0xFF, h := 0x12 }) 4 0x0101
      { zero with l := 0x00, h := 0x12, f := 0xA0 } = true ∧
    ends (launched 0x0100 [0x3C] { zero with a := 0xEF, f := 0x40 }) 4 0x0101 { zero with a := 0xF0, f := 0x20 } = true := by
  decide +kernel

/-- V-INC8 to V-INC12. A byte of value `Config.unlistedByte` is not listed. -/
theorem test_inc_memory :
    ends (launched 0x0100 [0x34] { zero with h := 0xC0 } [(0x0000, 0x0F)]) 12 0x0101 { zero with h := 0xC0, f := 0x20 }
      [(0x0000, 0x10)] = true ∧
    ends (launched 0x0100 [0x34] { zero with h := 0xC0, f := 0x10 } [(0x0000, 0xFF)]) 12 0x0101
      { zero with h := 0xC0, f := 0xB0 } [] = true ∧
    faults { launched 0x0100 [0x34] with cart := 0x07 :: (launched 0x0100 [0x34]).cart.tail }
      (.readOnlyViolation 0x0000) = true ∧
    faults (launched 0x0100 [0x34] { zero with h := 0xFE }) (.unimplementedRegion 0xFE00 .oam) = true ∧
    faults (launched 0x0100 [0x34] { zero with h := 0xFE, l := 0xA0 }) (.illegalAddress 0xFEA0) = true := by decide +kernel

/-- V-ADD1 to V-ADD8. -/
theorem test_add_slots :
    ends (launched 0x0100 [0x80] { zero with a := 0x3A, b := 0xC6 }) 4 0x0101 { zero with b := 0xC6, f := 0xB0 } = true ∧
    ends (launched 0x0100 [0x81] { zero with a := 0x0F, c := 0x01 }) 4 0x0101
      { zero with a := 0x10, c := 0x01, f := 0x20 } = true ∧
    ends (launched 0x0100 [0x82] { zero with a := 0xF0, d := 0x20 }) 4 0x0101
      { zero with a := 0x10, d := 0x20, f := 0x10 } = true ∧
    ends (launched 0x0100 [0x83] { zero with f := 0x70 }) 4 0x0101 { zero with f := 0x80 } = true ∧
    ends (launched 0x0100 [0x84] { zero with a := 0xFF, h := 0x01 }) 4 0x0101 { zero with h := 0x01, f := 0xB0 } = true ∧
    ends (launched 0x0100 [0x85] { zero with a := 0x12, l := 0x34 }) 4 0x0101 { zero with a := 0x46, l := 0x34 } = true ∧
    ends (launched 0x0100 [0x87] { zero with a := 0x88 }) 4 0x0101 { zero with a := 0x10, f := 0x30 } = true ∧
    ends (launched 0x0100 [0x87] { zero with a := 0x80 }) 4 0x0101 { zero with a := 0x00, f := 0x90 } = true := by decide +kernel

/-- V-ADD9 to V-ADD11. -/
theorem test_add_memory :
    ends (launched 0x0100 [0x86] { zero with a := 0x0F, h := 0xC0 } [(0x0000, 0x01)]) 8 0x0101
      { zero with a := 0x10, h := 0xC0, f := 0x20 } = true ∧
    ends (launched 0x0100 [0x86] { zero with a := 0xFF, h := 0xD0 } [(0x1000, 0xFF)]) 8 0x0101
      { zero with a := 0xFE, h := 0xD0, f := 0x30 } = true ∧
    faults (launched 0x0100 [0x86] { zero with a := 0x01, h := 0x80 }) (.unimplementedRegion 0x8000 .videoRam) = true := by
  decide +kernel

/-- V-SUB1 to V-SUB7. -/
theorem test_sub_slots :
    ends (launched 0x0100 [0x90] { zero with a := 0x10, b := 0x01 }) 4 0x0101
      { zero with a := 0x0F, b := 0x01, f := 0x60 } = true ∧
    ends (launched 0x0100 [0x91] { zero with a := 0x20, c := 0x30 }) 4 0x0101
      { zero with a := 0xF0, c := 0x30, f := 0x50 } = true ∧
    ends (launched 0x0100 [0x92] { zero with a := 0x00, d := 0x01 }) 4 0x0101
      { zero with a := 0xFF, d := 0x01, f := 0x70 } = true ∧
    ends (launched 0x0100 [0x93] { zero with a := 0x42, e := 0x42 }) 4 0x0101 { zero with e := 0x42, f := 0xC0 } = true ∧
    ends (launched 0x0100 [0x94] { zero with a := 0xFF, h := 0x0F }) 4 0x0101
      { zero with a := 0xF0, h := 0x0F, f := 0x40 } = true ∧
    ends (launched 0x0100 [0x95] { zero with a := 0x80, f := 0x10 }) 4 0x0101 { zero with a := 0x80, f := 0x40 } = true ∧
    ends (launched 0x0100 [0x97] { zero with a := 0x9C, f := 0x30 }) 4 0x0101 { zero with f := 0xC0 } = true := by decide +kernel

/-- V-SUB8, V-SUB9. -/
theorem test_sub_memory :
    ends (launched 0x0100 [0x96] { zero with a := 0x05, h := 0xC0, l := 0x01 } [(0x0001, 0x06)]) 8 0x0101
      { zero with a := 0xFF, h := 0xC0, l := 0x01, f := 0x70 } = true ∧
    faults (launched 0x0100 [0x96] { zero with a := 0x05, h := 0xFE }) (.unimplementedRegion 0xFE00 .oam) = true := by
  decide +kernel

/-- V-XOR1 to V-XOR8. -/
theorem test_xor_slots :
    ends (launched 0x0100 [0xA8]) 4 0x0101 { zero with f := 0x80 } = true ∧
    ends (launched 0x0100 [0xA8] { zero with a := 0xF0, b := 0xFF, f := 0xF0 }) 4 0x0101
      { zero with a := 0x0F, b := 0xFF } = true ∧
    ends (launched 0x0100 [0xA9] { zero with a := 0x55, c := 0xAA }) 4 0x0101 { zero with a := 0xFF, c := 0xAA } = true ∧
    ends (launched 0x0100 [0xAA] { zero with a := 0x5A, d := 0x5A, f := 0x70 }) 4 0x0101
      { zero with d := 0x5A, f := 0x80 } = true ∧
    ends (launched 0x0100 [0xAB] { zero with a := 0x01, e := 0x80 }) 4 0x0101 { zero with a := 0x81, e := 0x80 } = true ∧
    ends (launched 0x0100 [0xAC] { zero with a := 0x0F, h := 0x0F }) 4 0x0101 { zero with h := 0x0F, f := 0x80 } = true ∧
    ends (launched 0x0100 [0xAD] { zero with l := 0x01 }) 4 0x0101 { zero with a := 0x01, l := 0x01 } = true ∧
    ends (launched 0x0100 [0xAF] { zero with a := 0xC3, f := 0x70 }) 4 0x0101 { zero with f := 0x80 } = true := by decide +kernel

/-- V-XOR9, V-XOR10. -/
theorem test_xor_memory :
    ends (launched 0x0100 [0xAE] { zero with a := 0xFF, h := 0xC0, l := 0x02 } [(0x0002, 0x0F)]) 8 0x0101
      { zero with a := 0xF0, h := 0xC0, l := 0x02 } = true ∧
    faults (launched 0x0100 [0xAE] { zero with a := 0xFF, h := 0xFF }) (.unimplementedRegion 0xFF00 .io) = true := by decide +kernel

/-- V-JP1, V-JP3, V-JP5, V-JP9: no target is checked, and `JP` may stand in Work RAM. -/
theorem test_jp :
    ends (launched 0x0100 [0xC3, 0x50, 0x00]) 16 0x0050 = true ∧
    ends (launched 0x0100 [0xC3, 0x34, 0xC2] { zero with f := 0xF0 }) 16 0xC234 = true ∧
    ends (launched 0x0100 [0xC3, 0xFF, 0xFF]) 16 0xFFFF = true ∧
    ends { State.construct [(0x0FFD, 0xC3), (0x0FFF, 0x01)] with pc := 0xCFFD } 16 0x0100 = true := by decide +kernel

/-- V-JP8, V-JP10. -/
theorem test_jp_faults :
    faults { State.construct [(0x0FFE, 0xC3), (0x1000, 0x01)] with pc := 0xCFFE } (.crossRegionRead 0xCFFF 2) = true ∧
    faults (launched 0x0100 [0xC3, 0x50]) (.backingOutOfRange 0x0102 0x0102) = true := by decide +kernel

/-- V-JR1 to V-JR8: both signs, the extremes and the wrap. -/
theorem test_jr :
    ends (launched 0x0100 [0x18, 0x05]) 12 0x0107 = true ∧ ends (launched 0x0150 [0x18, 0xFB]) 12 0x014D = true ∧
    ends (launched 0x0100 [0x18, 0xFE]) 12 0x0100 = true ∧ ends (launched 0x0100 [0x18, 0x7F]) 12 0x0181 = true ∧
    ends (launched 0x0100 [0x18, 0x80]) 12 0x0082 = true ∧ ends (launched 0x0000 [0x18, 0x80]) 12 0xFF82 = true ∧
    ends { State.construct [(0x1FF0, 0x18), (0x1FF1, 0x7F)] with pc := 0xDFF0 } 12 0xE071 = true := by decide +kernel

/-- V-JR9 to V-JR15. -/
theorem test_jr_conditions :
    ends (launched 0x0101 [0x20, 0xFD]) 12 0x0100 = true ∧
    ends (launched 0x0101 [0x20, 0xFD] { zero with f := 0x80 }) 8 0x0103 = true ∧
    ends (launched 0x0100 [0x20, 0x10] { zero with f := 0x70 }) 12 0x0112 = true ∧
    ends (launched 0x0200 [0x28, 0x02] { zero with f := 0x80 }) 12 0x0204 = true ∧
    ends (launched 0x0200 [0x28, 0x02]) 8 0x0202 = true ∧
    ends (launched 0x0100 [0x28, 0xF0] { zero with f := 0x70 }) 8 0x0102 = true := by decide +kernel

/-- V-JR16, V-JR17: the displacement byte is fetched before the condition is looked at. -/
theorem test_jr_faults :
    faults (launched 0x0100 [0x20]) (.backingOutOfRange 0x0101 0x0101) = true ∧
    faults { State.construct [(0x1FFF, 0x18)] with pc := 0xDFFF } (.illegalAddress 0xE000) = true := by decide +kernel

/-- V-ST1 and L5: `STOP` halts, and a step in HALTED returns 4 and changes nothing. -/
theorem test_stop :
    (match stepCosted (launched 0x0100 [0x10, 0x00] { zero with a := 0x12, f := 0xB0 }) with
      | .next (t, n) => n == 4 && t.runState == .halted && t.pc == 0x0101 &&
        t.slots == { zero with a := 0x12, f := 0xB0 } && ends t 4 0x0101
      | _ => false) = true := by decide +kernel

/-- V-UN1, V-UN17 to V-UN20. -/
theorem test_unimplemented :
    faults (launched 0x0100 [0x00, 0x00, 0x00]) (.unimplementedOpcode 0x00 0x0100) = true ∧
    faults (launched 0x0100 [0xC9, 0x00, 0x00]) (.unimplementedOpcode 0xC9 0x0100) = true ∧
    faults (launched 0x0100 [0xCB, 0x00, 0x00]) (.unimplementedOpcode 0xCB 0x0100) = true ∧
    faults (launched 0x0100 [0xFF]) (.unimplementedOpcode 0xFF 0x0100) = true := by decide +kernel

/-! ## Reset and the host interface (L1 to L5) -/

theorem test_load_cartridge :
    loadCartridge [0x10] { launched 0x0234 [] { zero with b := 0x07, f := 0x80 } [(0, 0x99)] with cart := [] } =
      .next { State.construct [(0, 0x99)] with slots := { zero with b := 0x07, f := 0x80 }, pc := 0x0100, cart := [0x10] } :=
  rfl

theorem test_step_after_reset :
    faults State.reset (.backingOutOfRange 0x0000 0) = true ∧
    (match loadCartridge [] State.reset with
      | .next t => faults t (.backingOutOfRange 0x0100 0x0100)
      | _ => false) = true := by decide

/-- R166: after a fault report nothing can be called. -/
theorem test_faulted_is_the_end :
    (transact .step State.reset).2 = .faulted (.backingOutOfRange 0x0000 0) ∧
    (transact .step (transact .step State.reset).1).2 = .refused .stepInFaulted ∧
    (transact (.loadCartridge [0x10]) (transact .step State.reset).1).2 = .refused .loadInFaulted := by decide

/-! ## Witnesses: inputs that meet the hypotheses of the statements, clause by clause and at the ends of ranges -/

/-- The reset state with a cartridge of `n` bytes 0xC3, and the given `pc`. -/
def rom (n : Nat) (pc : Word) : State := { State.reset with cart := List.replicate n 0xC3#8, pc := pc }

theorem rom_cart (n o : Nat) (pc : Word) (h : o < n) : (rom n pc).cart[o]? = some 0xC3#8 := by
  show (List.replicate n 0xC3#8)[o]? = some 0xC3#8
  rw [List.getElem?_replicate, if_pos h]

theorem rom_read (n : Nat) (pc a : Word) (h : a.toNat ≤ 0x7FFF) (hn : a.toNat < n) :
    readByte (rom n pc) a = .ok 0xC3#8 := by
  have hc := rom_cart n a.toNat pc hn
  by_cases hf : a.toNat ≤ 0x3FFF
  · simp only [readByte, region, map_romFixed a _ _ _ hf, readCart, hc]
  · have e : a.toNat + ((rom n pc).romBank - 1) * Config.romBankSize = a.toNat := by
      show a.toNat + (1 - 1) * 0x4000 = a.toNat
      omega
    simp only [readByte, region, map_romSwitch a _ _ _ (by omega) h, readCart, e, hc]

/-- The outcome is a next state that passes the check `p`. -/
def nextWith (o : Host.Outcome State Fault Refusal) (p : State → Bool) : Bool :=
  match o with
  | .next t => p t
  | _ => false

theorem exists_of_nextWith (o : Host.Outcome State Fault Refusal) (p : State → Bool) (h : nextWith o p = true) :
    ∃ t, o = .next t ∧ p t = true := by
  cases o with
  | next t => exact ⟨t, rfl, h⟩
  | fault r => cases h
  | refused r => cases h

/-- A state at `pc` 0xC000 whose Work RAM starts with `bytes`. -/
def inWork (slots : Slots) (work : Memory) : State := { State.construct work with slots := slots, pc := 0xC000 }

theorem inv_inWork : (inWork { zero with h := 0xC0, b := 0x5A, f := 0x10 } [(0, 0x70)]).Inv :=
  ⟨by decide, by decide, by decide, by decide⟩

theorem witness_PairPortsComposeAndRoundTrip : Slot.b ≠ Pair.hl.high ∧ Slot.b ≠ Pair.hl.low := by decide

theorem witness_RomOffsetsFollowTheBank :
    (0x3FFF#16).toNat ≤ 0x3FFF ∧ (0x4000 ≤ (0x4000#16).toNat ∧ (0x7FFF#16).toNat ≤ 0x7FFF) ∧
    ((rom 0x8000 0).romBank = 1 ∧ (rom 0x8000 0).cart[(0x7FFF#16).toNat]? = some 0xC3#8) ∧
    ((0x3FFF#16).toNat ≤ 0x3FFF ∧ ({ rom 0xC000 0 with romBank := 2 } : State).cart[(0x3FFF#16).toNat]? = some 0xC3#8) ∧
    (1 ≤ ({ rom 0xC000 0 with romBank := 2 } : State).romBank ∧
      ({ rom 0xC000 0 with romBank := 2 } : State).cart[(0x7FFF#16).toNat + (2 - 1) * 0x4000]? = some 0xC3#8) :=
  ⟨by decide, by decide, ⟨rfl, rom_cart 0x8000 0x7FFF 0 (by decide)⟩,
    ⟨by decide, rom_cart 0xC000 0x3FFF 0 (by decide)⟩, by decide, rom_cart 0xC000 0xBFFF 0 (by decide)⟩

theorem witness_WorkRamOffsetsNeverAlias :
    (0xC000 ≤ (0xC000#16).toNat ∧ (0xCFFF#16).toNat ≤ 0xCFFF) ∧ (0xD000 ≤ (0xD000#16).toNat ∧ (0xDFFF#16).toNat ≤ 0xDFFF) ∧
    mapAddress 0xCFFF 1 1 false = .workFixed 0x0FFF ∧ mapAddress 0xD000 1 1 false = .workSwitch 0x1000 ∧
    mapAddress 0xDFFF 1 1 false = .workSwitch 0x1FFF := by decide

theorem witness_WriteIsReadBackAndNothingElseMoves :
    (inWork zero []).Inv ∧
    writeByte (inWork zero []) 0xDFFF 0x5A = .ok (inWork zero [(0x1FFF, 0x5A)]) ∧ (0xC000 : Word) ≠ 0xDFFF ∧
    region (inWork zero []) 0xDFFF ≠ .workFixed 0x2FFF ∧ region (inWork zero []) 0xDFFF ≠ .workSwitch 0x2FFF :=
  ⟨⟨by decide, by decide, by decide, by decide⟩, by decide +kernel, by decide, by decide +kernel, by decide +kernel⟩

theorem witness_IllegalAddressesAlwaysFault :
    (0xE000 ≤ (0xE000#16).toNat ∧ (0xE000#16).toNat ≤ 0xFDFF) ∧ (0xE000 ≤ (0xFDFF#16).toNat ∧ (0xFDFF#16).toNat ≤ 0xFDFF) ∧
    (0xFEA0 ≤ (0xFEA0#16).toNat ∧ (0xFEA0#16).toNat ≤ 0xFEFF) ∧ (0xFEA0 ≤ (0xFEFF#16).toNat ∧ (0xFEFF#16).toNat ≤ 0xFEFF) ∧
    (rom 0 0xE000).runState = .running ∧ (rom 0 0xE000).pc = 0xE000 := by decide

theorem witness_UnwiredRegionsAlwaysFault :
    (0x8000 ≤ (0x8000#16).toNat ∧ (0x9FFF#16).toNat ≤ 0x9FFF) ∧ (0xA000 ≤ (0xA000#16).toNat ∧ (0xBFFF#16).toNat ≤ 0xBFFF) ∧
    (0xFE00 ≤ (0xFE00#16).toNat ∧ (0xFE9F#16).toNat ≤ 0xFE9F) ∧ (0xFF00 ≤ (0xFF00#16).toNat ∧ (0xFF7F#16).toNat ≤ 0xFF7F) ∧
    (0xFF80 ≤ (0xFF80#16).toNat ∧ (0xFFFE#16).toNat ≤ 0xFFFE) ∧ (0xFFFF#16).toNat = 0xFFFF ∧
    (rom 0 0xFFFF).runState = .running ∧ (rom 0 0xFFFF).pc = 0xFFFF := by decide

theorem witness_RomWriteFaultsAndOnlyStoresRaiseIt :
    (0x0000#16).toNat ≤ 0x7FFF ∧ (0x7FFF#16).toNat ≤ 0x7FFF ∧
    faults (launched 0 [0x70]) (.readOnlyViolation 0x0000) = true ∧
    faults (launched 0 [0x34]) (.readOnlyViolation 0x0000) = true ∧
    faults (launched 0 [0x77] { zero with h := 0x7F, l := 0xFF }) (.readOnlyViolation 0x7FFF) = true := by decide +kernel

theorem witness_OffsetsOutsideTheStoreFault :
    ((0x0000#16).toNat ≤ 0x3FFF ∧ State.reset.cart.length ≤ (0x0000#16).toNat) ∧
    (0x4000 ≤ (0x4000#16).toNat ∧ (rom 0x4000 0).cart.length ≤ (0x4000#16).toNat + ((rom 0x4000 0).romBank - 1) * 0x4000) ∧
    (0xD000 ≤ (0xD000#16).toNat ∧ 262144 ≤ (0xD000#16).toNat - 0xD000 + 64 * 0x1000) :=
  ⟨by decide, ⟨by decide, by rw [show (rom 0x4000 0).cart.length = 0x4000 from List.length_replicate]; decide⟩, by decide⟩

theorem witness_SizedReadStaysInOneRegion :
    0xFFFF < (0xFFFF#16).toNat + 2 - 1 ∧
    (region State.reset 0xCFFF).kind ≠ (region State.reset (0xCFFF + BitVec.ofNat 16 (2 - 1))).kind ∧
    ((0xCFFE#16).toNat + 2 - 1 ≤ 0xFFFF ∧
      (region State.reset 0xCFFE).kind = (region State.reset (0xCFFE + BitVec.ofNat 16 (2 - 1))).kind ∧
      readSized State.reset 0xCFFE 2 = .ok [0, 0] ∧
      readSized State.reset 0x0000 1 = .error (.backingOutOfRange 0 0)) := by decide +kernel

theorem witness_WordReadIsLittleEndian :
    readByte (State.construct [(0x0FFE, 0x34), (0x0FFF, 0xC2)]) 0xCFFE = .ok 0x34 ∧
    readByte (State.construct [(0x0FFE, 0x34), (0x0FFF, 0xC2)]) (0xCFFE + 1#16) = .ok 0xC2 ∧
    (0xCFFE#16).toNat ≠ 0xFFFF ∧
    (region State.reset 0xCFFE).kind = (region State.reset (0xCFFE + 1#16)).kind := by decide +kernel

theorem witness_FetchByteReadsAndAdvances :
    readByte (inWork zero [(0, 0x10)]) (inWork zero []).pc = .ok 0x10 ∧
    readByte (rom 0 0xFFFF) (rom 0 0xFFFF).pc = .error (.unimplementedRegion 0xFFFF .interruptEnable) := by decide +kernel

theorem witness_StoredByteIsFetchedNext :
    ∃ s t u : State, s.Inv ∧ operandSlot (Reg8.ofCode 0) = some .b ∧ exec (Instr.ld .mhl .b) s = .next t ∧
      t.pc = getPair s .hl ∧ readByte s (getPair s .hl) = .ok 0x70 ∧ exec .incMhl s = .next u ∧ u.pc = getPair s .hl := by
  let s := inWork { zero with h := 0xC0, b := 0x5A, f := 0x10 } [(0, 0x70)]
  obtain ⟨t, ht, hpt⟩ := exists_of_nextWith (exec (Instr.ld .mhl .b) s) (fun t => t.pc == getPair s .hl) (by decide +kernel)
  obtain ⟨u, hu, hpu⟩ := exists_of_nextWith (exec .incMhl s) (fun u => u.pc == getPair s .hl) (by decide +kernel)
  exact ⟨s, t, u, inv_inWork, rfl, ht, eq_of_beq hpt, by decide +kernel, hu, eq_of_beq hpu⟩

theorem witness_DecodeInvertsEncode : (Instr.jpA16 0xC234).wf = true ∧ (Instr.unimplemented 0xFF).wf = true := by decide

theorem witness_EncodeInvertsDecode :
    decode [0xC3, 0x34, 0xC2, 0x10] = .ok (.jpA16 0xC234, [0x10]) ∧ decode [0x00] = .ok (.unimplemented 0x00, []) := by decide

/-- Every length with a tail that is just long enough, and one byte shorter. -/
theorem witness_OpcodeAloneTellsTheLength :
    3 ≤ ([0x34, 0xC2] : List Byte).length + 1 ∧ ([0x34] : List Byte).length + 1 < 3 ∧
    2 ≤ ([0xFE] : List Byte).length + 1 ∧ ([] : List Byte).length + 1 < 2 ∧ 1 ≤ ([] : List Byte).length + 1 := by decide

/-- The ends of the ranges of R97, and their admitted neighbours. -/
theorem witness_ExactlyTheListedBytesAreUnimplemented :
    [0x00, 0x03, 0x05, 0x0B, 0x0D, 0x0F, 0x11, 0x13, 0x15, 0x17, 0x19, 0x1B, 0x1D, 0x1F, 0x21, 0x23, 0x25, 0x27, 0x29,
      0x2B, 0x2D, 0x33, 0x35, 0x3B, 0x3D, 0x3F, 0x88, 0x8F, 0x98, 0xA7, 0xB0, 0xC2, 0xC4, 0xFF].all
      unimplementedByte = true ∧
    [0x04, 0x0C, 0x10, 0x14, 0x18, 0x1C, 0x20, 0x24, 0x28, 0x2C, 0x34, 0x3C, 0x40, 0x7F, 0x80, 0x87, 0x90, 0x97, 0xA8,
      0xAF, 0xC3].any unimplementedByte = false := by decide

/-- Both ends of the register field and the code after the memory operand; used by every register form. -/
theorem witness_LdSlotFromSlot :
    operandSlot (Reg8.ofCode 0) = some .b ∧ operandSlot (Reg8.ofCode 5) = some .l ∧
    operandSlot (Reg8.ofCode 7) = some .a := by decide

theorem witness_LdSlotFromMemory :
    operandSlot (Reg8.ofCode 7) = some .a ∧
    readByte (inWork { zero with h := 0xC0 } [(0, 0x9A)]) (getPair (inWork { zero with h := 0xC0 } []) .hl) = .ok 0x9A ∧
    readByte State.reset (getPair State.reset .hl) = .error (.backingOutOfRange 0x0000 0) := by decide +kernel

/-- The ends of both windows, and a write that faults. -/
theorem witness_LdMemoryFromSlot :
    operandSlot (Reg8.ofCode 0) = some .b ∧ Memory.wf State.reset.work ∧
    (0xC000 ≤ 0xC0 * 256 + 0x00 ∧ 0xC0 * 256 + 0x00 ≤ 0xCFFF) ∧ (0xC000 ≤ 0xCF * 256 + 0xFF ∧ 0xCF * 256 + 0xFF ≤ 0xCFFF) ∧
    (0xD000 ≤ 0xDF * 256 + 0xFF ∧ 0xDF * 256 + 0xFF ≤ 0xDFFF ∧
      0xDF * 256 + 0xFF - 0xD000 + State.reset.workBank * 0x1000 < 262144) ∧
    writeByte State.reset (getPair State.reset .hl) (getSlot State.reset .b) = .error (.readOnlyViolation 0x0000) := by
  refine ⟨rfl, by decide, by decide, by decide, by decide, rfl⟩

theorem witness_LdMemoryFromMemory :
    Memory.wf (inWork { zero with h := 0xC0 } [(0, 0x9A)]).work ∧
    (readByte (inWork { zero with h := 0xC0 } [(0, 0x9A)]) 0xC000 = .ok 0x9A ∧
      0xC000 ≤ (getPair (inWork { zero with h := 0xC0 } []) .hl).toNat) ∧
    (readByte (launched 0 [0x76]) (getPair (launched 0 [0x76]) .hl) = .ok 0x76 ∧
      (getPair (launched 0 [0x76]) .hl).toNat ≤ 0x7FFF) ∧
    readByte State.reset (getPair State.reset .hl) = .error (.backingOutOfRange 0x0000 0) := by decide +kernel

theorem witness_IncMemory :
    Memory.wf (inWork { zero with h := 0xC0 } [(0, 0xFF)]).work ∧
    (0xC000 ≤ 0xC0 * 256 + 0x00 ∧ 0xC0 * 256 + 0x00 ≤ 0xCFFF) ∧
    (0xD000 ≤ 0xDF * 256 + 0xFF ∧ 0xDF * 256 + 0xFF ≤ 0xDFFF ∧
      0xDF * 256 + 0xFF - 0xD000 + State.reset.workBank * 0x1000 < 262144) ∧
    readByte State.reset (getPair State.reset .hl) = .error (.backingOutOfRange 0x0000 0) ∧
    (readByte (launched 0 [0x34]) (getPair (launched 0 [0x34]) .hl) = .ok 0x34 ∧
      writeByte (launched 0 [0x34]) (getPair (launched 0 [0x34]) .hl) 0x35 = .error (.readOnlyViolation 0x0000)) := by
  decide +kernel

/-- For `IncSlot`, `AddSlotToA`, `SubSlotFromA` and `XorSlotIntoA`. -/
theorem witness_IncSlot :
    operandSlot (Reg8.ofCode 3) = some .e ∧ operandSlot (Reg8.ofCode 7) = some .a := by decide

/-- For `AddMemoryToA`, `SubMemoryFromA` and `XorMemoryIntoA`: a read that answers and one that faults. -/
theorem witness_AddMemoryToA :
    ∃ s t : State, readByte s (getPair s .hl) = .ok 0x01 ∧ s.slots.a.toNat = 255 ∧
      readByte t (getPair t .hl) = .error (.illegalAddress 0xE000) :=
  ⟨inWork { zero with h := 0xC0, a := 0xFF } [(0, 0x01)], inWork { zero with h := 0xE0 } [], by decide +kernel,
    by decide, by decide +kernel⟩

theorem witness_JrAddsTheDisplacement :
    State.reset.slots.f.getLsbD 7 = false ∧ (inWork { zero with f := 0x80 } []).slots.f.getLsbD 7 = true := by decide

/-- The five ways of `JR`, at the two ends of the displacement. -/
theorem witness_JrTargetFromTheOpcodeAddress :
    ((launched 0 [0x18, 0x80]).runState = .running ∧ readByte (launched 0 [0x18, 0x80]) 0 = .ok 0x18 ∧
      readByte (launched 0 [0x18, 0x80]) (0 + 1#16) = .ok 0x80) ∧
    (readByte (launched 0 [0x20, 0x7F]) 0 = .ok 0x20 ∧ (launched 0 [0x20, 0x7F]).slots.f.getLsbD 7 = false) ∧
    (readByte (launched 0 [0x28, 0x7F] { zero with f := 0x80 }) 0 = .ok 0x28 ∧
      (launched 0 [0x28, 0x7F] { zero with f := 0x80 }).slots.f.getLsbD 7 = true) ∧
    (readByte (launched 0 [0x20, 0x7F] { zero with f := 0x80 }) 0 = .ok 0x20 ∧
      (launched 0 [0x20, 0x7F] { zero with f := 0x80 }).slots.f.getLsbD 7 = true) ∧
    (readByte (launched 0 [0x28, 0x7F]) 0 = .ok 0x28 ∧ (launched 0 [0x28, 0x7F]).slots.f.getLsbD 7 = false) := by decide +kernel

/-- A `JP` in the last three bytes of a bank, and at each of the four places where its operand bytes straddle two rows. -/
theorem witness_JpStepReadsOneRegion :
    ((rom 0x8000 0x3FFD).runState = .running ∧ readByte (rom 0x8000 0x3FFD) 0x3FFD = .ok 0xC3 ∧
      readByte (rom 0x8000 0x3FFD) (0x3FFD + 1#16) = .ok 0xC3 ∧ readByte (rom 0x8000 0x3FFD) (0x3FFD + 2#16) = .ok 0xC3) ∧
    readByte (rom 0x8000 0x3FFE) 0x3FFE = .ok 0xC3 ∧ readByte (rom 0x8000 0x7FFE) 0x7FFE = .ok 0xC3 ∧
    readByte (State.construct [(0x0FFE, 0xC3)]) 0xCFFE = .ok 0xC3 ∧
    readByte (State.construct [(0x1FFE, 0xC3)]) 0xDFFE = .ok 0xC3 :=
  ⟨⟨rfl, rom_read _ _ _ (by decide) (by decide), rom_read _ _ _ (by decide) (by decide),
    rom_read _ _ _ (by decide) (by decide)⟩, rom_read _ _ _ (by decide) (by decide),
    rom_read _ _ _ (by decide) (by decide), by decide +kernel, by decide +kernel⟩

theorem witness_UnimplementedOpcodeFaults :
    (launched 0 [0xCB]).runState = .running ∧ readByte (launched 0 [0xCB]) (launched 0 [0xCB]).pc = .ok 0xCB ∧
    unimplementedByte 0xCB = true := by decide +kernel

/-- One instruction of each length, in Work RAM. -/
theorem witness_StepRunsTheDecodedInstruction :
    (encode .ldMhlMhl = [Instr.ldMhlMhl.opcode] ∧ readByte (inWork zero [(0, 0x76)]) 0xC000 = .ok Instr.ldMhlMhl.opcode) ∧
    (encode (.jrE8 0xFE) = [(Instr.jrE8 0xFE).opcode, 0xFE] ∧
      readByte (inWork zero [(0, 0x18), (1, 0xFE)]) 0xC000 = .ok (Instr.jrE8 0xFE).opcode ∧
      readByte (inWork zero [(0, 0x18), (1, 0xFE)]) (0xC000 + 1#16) = .ok 0xFE) ∧
    (encode (.jpA16 0xC234) = [(Instr.jpA16 0xC234).opcode, 0x34, 0xC2] ∧
      readByte (inWork zero [(0, 0xC3), (1, 0x34), (2, 0xC2)]) 0xC000 = .ok (Instr.jpA16 0xC234).opcode ∧
      readByte (inWork zero [(0, 0xC3), (1, 0x34), (2, 0xC2)]) (0xC000 + 1#16) = .ok 0x34 ∧
      readByte (inWork zero [(0, 0xC3), (1, 0x34), (2, 0xC2)]) (0xC000 + 2#16) = .ok 0xC2 ∧
      (region State.reset (0xC000 + 1#16)).kind = (region State.reset (0xC000 + 2#16)).kind) := by decide +kernel

/-- And each of the three completes, so that its cost is returned. -/
theorem witness_StepRunsTheDecodedInstruction_completes :
    (∃ u, exec .ldBB (inWork zero []) = .next u) ∧ (∃ u, exec (.jrE8 0xFE) (inWork zero []) = .next u) ∧
    (∃ u, exec (.jpA16 0xC234) (inWork zero []) = .next u) := ⟨⟨_, rfl⟩, ⟨_, rfl⟩, _, rfl⟩

theorem witness_FirstFaultEndsTheStep :
    readByte State.reset State.reset.pc = .error (.backingOutOfRange 0 0) ∧
    (readByte (launched 0 [0x20]) 0 = .ok 0x20 ∧ readByte (launched 0 [0x20]) (0 + 1#16) = .error (.backingOutOfRange 1 1)) ∧
    (readByte (launched 0 [0xC3]) 0 = .ok 0xC3 ∧
      readSized (launched 0 [0xC3]) (0 + 1#16) 2 = .error (.backingOutOfRange 1 1)) ∧
    (Instr.ldMhlB.wf = true ∧ encode .ldMhlB = [Instr.ldMhlB.opcode] ∧ readByte (launched 0 [0x70]) 0 = .ok 0x70 ∧
      exec .ldMhlB { launched 0 [0x70] with pc := 1 } = .fault (.readOnlyViolation 0x0000)) :=
  ⟨by decide +kernel, by decide +kernel, by decide +kernel, rfl, rfl, by decide +kernel, rfl⟩

theorem witness_HaltedStepReturnsFour : ({ State.reset with runState := .halted } : State).runState = .halted := rfl

/-- For `OnlyStopLeavesRunning`, `StepCostsAreFourToSixteen` and `StepNeverWritesSpCartOrSelectors`: one step that stays in
RUNNING and one that halts. -/
theorem witness_OnlyStopLeavesRunning :
    (∃ t : State, step (launched 0 [0x04]) = .next t ∧ (t.runState == .running) = true) ∧
    (∃ t : State, step (launched 0 [0x10]) = .next t ∧ (t.runState == .halted) = true) ∧
    ends (launched 0 [0x04]) 4 1 { zero with b := 0x01 } = true :=
  ⟨exists_of_nextWith _ (fun t => t.runState == .running) (by decide +kernel),
    exists_of_nextWith _ (fun t => t.runState == .halted) (by decide +kernel), by decide +kernel⟩

theorem witness_StepKeepsTheInvariant : ∃ s t : State, s.Inv ∧ step s = .next t := by
  obtain ⟨t, ht, -⟩ := exists_of_nextWith (step (inWork { zero with h := 0xC0, b := 0x5A, f := 0x10 } [(0, 0x70)]))
    (fun _ => true) (by decide +kernel)
  exact ⟨_, t, inv_inWork, ht⟩

theorem witness_ResetMeetsTheInvariant :
    Memory.wf [(0, 0x99), (262143, 0x01)] ∧ ∃ s : State, s.IsLaunch := by
  refine ⟨by decide, _, [(0, 0x99)], [0x10], by decide, rfl⟩

/-- An instruction that changes its slot and F, one that jumps, and one that halts. -/
theorem witness_SlotsChangeOnlyByTheirWriters :
    (∃ t, exec .incB { State.reset with slots := { zero with b := 0xFF } } = .next t ∧ t.slots.b ≠ 0xFF ∧ t.slots.f ≠ 0x00) ∧
    (∃ t, exec (.jpA16 0x0150) State.reset = .next t ∧ t.pc ≠ State.reset.pc) ∧
    ∃ t, exec .stop State.reset = .next t ∧ t.runState ≠ State.reset.runState :=
  ⟨⟨_, rfl, by decide, by decide⟩, ⟨_, rfl, by decide⟩, _, rfl, by decide⟩

theorem witness_StoresChangeOnlyTheByteAtHl :
    ∃ s t u : State, s.Inv ∧ exec (Instr.ld .mhl .b) s = .next t ∧ exec .incMhl s = .next u ∧
      (0xC001 : Word) ≠ getPair s .hl ∧
      region s (getPair s .hl) ≠ .workFixed 0x2000 ∧ region s (getPair s .hl) ≠ .workSwitch 0x2000 := by
  let s := inWork { zero with h := 0xC0, b := 0x5A, f := 0x10 } [(0, 0x70)]
  obtain ⟨t, ht, -⟩ := exists_of_nextWith (exec (Instr.ld .mhl .b) s) (fun _ => true) (by decide +kernel)
  obtain ⟨u, hu, -⟩ := exists_of_nextWith (exec .incMhl s) (fun _ => true) (by decide +kernel)
  exact ⟨s, t, u, inv_inWork, ht, hu, by decide, by decide +kernel, by decide +kernel⟩

theorem witness_OtherInstructionsStoreNothing :
    (∀ z, Instr.ldBB ≠ Instr.ld .mhl z) ∧ Instr.ldBB ≠ .incMhl ∧ ∃ t, exec .ldBB State.reset = .next t :=
  ⟨by intro z; cases z <;> decide, by decide, _, rfl⟩

theorem witness_LoadCartridgeSetsCartAndPc :
    State.reset.runState = .running ∧ ({ State.reset with runState := .halted } : State).runState = .halted ∧
    (enterFaulted State.reset).runState = .faulted := ⟨rfl, rfl, rfl⟩

theorem witness_LaunchStateFetchesAtEntry : (List.replicate 0x0101 0xC3#8)[0x0100]? = some 0xC3#8 := by
  rw [List.getElem?_replicate, if_pos (by decide)]

theorem witness_HaltedAndFaultedAreAbsorbing :
    ({ State.reset with runState := .halted } : State).runState = .halted ∧
    (enterFaulted State.reset).runState = .faulted := ⟨rfl, rfl⟩

theorem witness_FaultReportEndsTheRun :
    (transact .step State.reset).2 = .faulted (.backingOutOfRange 0x0000 0) ∧
    (transact .step { State.reset with runState := .halted }).2 = .cost 4 := ⟨rfl, rfl⟩

end Sys2Proof.Tests
end

section
/-! The statement about the scope of the model (00_scope.md): the sparse store represents every `INIT_WORK`. -/
namespace Sys2Proof.Proofs.Scope
open Sys2Proof.Machine

/-- Settles O53: the witness writes the 262144 bytes one offset after the other (`Memory.ofFun`); each write keeps the
canonical form and the bytes below it. -/
theorem everyInitWorkIsRepresented : Obligations.EveryInitWorkIsRepresented := by
  intro initWork
  refine ⟨Memory.ofFun initWork Config.workSize, ?_, ?_⟩
  · exact Memory.ofFun_wf initWork Config.workSize le_rfl
  · intro o ho
    exact Memory.ofFun_read initWork Config.workSize o le_rfl ho

end Sys2Proof.Proofs.Scope
end

section
/-! The statements about the registers (10_state.md R20 to R27) and about the state after construction (R42). -/
namespace Sys2Proof.Proofs.Registers
open Sys2Proof.Machine

/-- Settles O1, by the two laws of the slot port. -/
theorem slotWriteReplacesOneSlot : Obligations.SlotWriteReplacesOneSlot :=
  fun s r v => ⟨fun q => getSlot_setSlot s r q v, setSlot_frame s r v⟩

/-- The two slots of a pair after a write of the pair (R23). -/
theorem getSlot_setPair_high (s : State) (p : Pair) (v : Word) : getSlot (setPair s p v) p.high = hi8 v := by
  rw [setPair, getSlot_setSlot_other _ _ _ _ (pair_low_ne_high p).symm, getSlot_setSlot_same]

theorem getSlot_setPair_low (s : State) (p : Pair) (v : Word) : getSlot (setPair s p v) p.low = lo8 v :=
  getSlot_setSlot_same _ _ _

theorem getSlot_setPair_other (s : State) (p : Pair) (v : Word) (q : Slot) (hh : q ≠ p.high) (hl : q ≠ p.low) :
    getSlot (setPair s p v) q = getSlot s q := by
  rw [setPair, getSlot_setSlot_other _ _ _ _ hl, getSlot_setSlot_other _ _ _ _ hh]

/-- Only the slots change under a pair write. -/
theorem setPair_frame (s : State) (p : Pair) (v : Word) :
    setPair s p v = { s with slots := (setPair s p v).slots } := by
  cases p <;> rfl

/-- Settles O2: a pair is its two slots as a number, and a pair write is two slot writes. -/
theorem pairPortsComposeAndRoundTrip : Obligations.PairPortsComposeAndRoundTrip := by
  refine ⟨fun s => ⟨getPair_toNat s .bc, getPair_toNat s .de, getPair_toNat s .hl, getPair_toNat s .af⟩,
    fun s p v => ⟨getPair_setPair s p v, ?_, ?_, getSlot_setPair_other s p v, setPair_frame s p v⟩⟩
  · rw [getSlot_setPair_high, hi8_toNat]
  · rw [getSlot_setPair_low, lo8_toNat]

/-- Settles O3: `SetFlags` is a write of the packed flag byte to slot F. -/
theorem setFlagsWritesTheFlagByte : Obligations.SetFlagsWritesTheFlagByte :=
  fun s x => ⟨packFlags_toNat x, zeroFlag_setFlags s x, carryFlag_setFlags s x, rfl⟩

@[simp] theorem getSlot_construct (m : Memory) (r : Slot) : getSlot (State.construct m) r = 0x00#8 := by
  cases r <;> rfl

/-- Settles O52: the slots one by one, the other fields by the definition of `State.construct`. -/
theorem constructGivesTheResetState : Obligations.ConstructGivesTheResetState :=
  ⟨fun m => ⟨getSlot_construct m, rfl, rfl, rfl, rfl, rfl, rfl, rfl, rfl⟩, [], rfl⟩

end Sys2Proof.Proofs.Registers
end

section
/-! The invariant of the machine (10_state.md R28, R35): each operation on the state keeps it, so every completed
instruction and every completed step does; and it holds after construction and at launch. -/
namespace Sys2Proof.Proofs.Invariant
open Sys2Proof.Machine

/-! ## Every operation keeps the invariant -/

/-- A write of any slot but F; a write of F has to come from `SetFlags` (`setFlags_inv`). -/
theorem setSlot_inv (s : State) (r : Slot) (v : Byte) (hs : s.Inv) (hr : r ≠ .f) : (setSlot s r v).Inv := by
  have hf : (setSlot s r v).slots.f = s.slots.f := getSlot_setSlot_other s r .f v hr.symm
  obtain ⟨hwork, hlow, hwb, hrb⟩ := hs
  exact ⟨by rwa [setSlot_work], by rwa [hf], by rwa [setSlot_workBank], by rwa [setSlot_romBank]⟩

theorem setFlags_inv (s : State) (x : Flags) (hs : s.Inv) : (setFlags s x).Inv :=
  ⟨hs.work_wf, packFlags_low x, hs.workBank_pos, hs.romBank_pos⟩

theorem setPc_inv (s : State) (v : Word) (hs : s.Inv) : (setPc s v).Inv :=
  ⟨hs.work_wf, hs.flags_low, hs.workBank_pos, hs.romBank_pos⟩

theorem setRunState_inv (s : State) (v : RunState) (hs : s.Inv) : (setRunState s v).Inv :=
  ⟨hs.work_wf, hs.flags_low, hs.workBank_pos, hs.romBank_pos⟩

theorem writeByte_inv (s t : State) (a : Word) (v : Byte) (hs : s.Inv) (h : writeByte s a v = .ok t) : t.Inv := by
  have hwf : Memory.wf t.work := writeByte_ok_wf s t a v hs.work_wf h
  rw [writeByte_ok_frame s t a v h]
  exact ⟨hwf, hs.flags_low, hs.workBank_pos, hs.romBank_pos⟩

/-! ## Every completed instruction and step keeps the invariant -/

theorem exec_next_inv (i : Instr) (s t : State) (hs : s.Inv) (h : exec i s = .next t) : t.Inv := by
  rcases exec_next_cases i s t h with ⟨y, _, r, v, -, hr, -, rfl⟩ | ⟨_, v, -, -, hw⟩ | ⟨k, r, -, hr, rfl⟩ |
    ⟨_, u, -, -, hw, rfl⟩ | ⟨_, _, _, -, -, rfl⟩ | ⟨_, -, ht⟩ | ⟨-, rfl⟩
  · exact setSlot_inv s r v hs (operandSlot_ne_f y r hr)
  · exact writeByte_inv s t _ v hs hw
  · exact setFlags_inv _ _ (setSlot_inv s r _ hs (operandSlot_ne_f k r hr))
  · exact setFlags_inv u _ (writeByte_inv s u _ _ hs hw)
  · exact setFlags_inv _ _ (setSlot_inv s .a _ hs (by decide))
  · rw [ht]; exact setPc_inv s t.pc hs
  · exact setRunState_inv s .halted hs

/-- Settles O47: a completed step is nothing, in HALTED, or a move of `pc` and one completed instruction. -/
theorem stepKeepsTheInvariant : Obligations.StepKeepsTheInvariant := by
  intro s t hs h
  rcases step_next_cases s t h with ⟨-, rfl⟩ | ⟨-, i, _, pc, -, -, -, -, hexec⟩
  · exact hs
  · exact exec_next_inv i (setPc s pc) t (setPc_inv s pc hs) hexec

/-! ## The invariant holds at the start -/

theorem construct_inv (m : Memory) (hm : Memory.wf m) : (State.construct m).Inv :=
  ⟨hm, rfl, le_rfl, le_rfl⟩

/-- A load that answers a state replaces `CART` and `pc` alone (R193). -/
theorem loadCartridge_next (bytes : List Byte) (s t : State) (h : loadCartridge bytes s = .next t) :
    t = { s with cart := bytes, pc := Config.entryPoint } := by
  unfold loadCartridge at h
  split at h
  · exact (Host.Outcome.next.inj h).symm
  · exact (Host.Outcome.next.inj h).symm
  · cases h

theorem loadCartridge_inv (bytes : List Byte) (s t : State) (hs : s.Inv) (h : loadCartridge bytes s = .next t) :
    t.Inv := by
  rw [loadCartridge_next bytes s t h]
  exact ⟨hs.work_wf, hs.flags_low, hs.workBank_pos, hs.romBank_pos⟩

/-- Settles O48: construction meets the invariant, and `load_cartridge` keeps it. -/
theorem resetMeetsTheInvariant : Obligations.ResetMeetsTheInvariant := by
  refine ⟨construct_inv [] Memory.wf_nil, construct_inv, ?_⟩
  rintro s ⟨m, bytes, hm, hload⟩
  exact loadCartridge_inv bytes (State.construct m) s (construct_inv m hm) hload

end Sys2Proof.Proofs.Invariant
end

section
/-! What a step and an instruction leave unchanged (10_state.md R29, R30, R33, R36, R39, R43): which fields no step writes,
and which opcodes write each slot, `pc` and `run_state`. -/
namespace Sys2Proof.Proofs.Writers
open Sys2Proof.Machine

/-! ## Frames of the step -/

/-- Settles O46, by the frame of a completed instruction. -/
theorem stepNeverWritesSpCartOrSelectors : Obligations.StepNeverWritesSpCartOrSelectors := by
  intro s t h
  rcases step_next_cases s t h with ⟨-, rfl⟩ | ⟨-, i, _, pc, -, -, -, -, hexec⟩
  · exact ⟨rfl, rfl, rfl, rfl, rfl⟩
  · exact exec_next_frame i (setPc s pc) t hexec

/-- Settles O44: the byte 0x10 is fetched as `STOP` and as nothing else, and `STOP` alone writes `run_state`. -/
theorem onlyStopLeavesRunning : Obligations.OnlyStopLeavesRunning := by
  intro s t hrun h
  rcases step_next_cases s t h with ⟨hhalt, -⟩ | ⟨-, i, op, pc, hop, hi, -, hfetch, hexec⟩
  · rw [hrun] at hhalt
    cases hhalt
  · refine ⟨op, hop, ?_⟩
    rcases exec_next_runState i (setPc s pc) t hexec with ⟨rfl, ht⟩ | ⟨hstop, ht⟩
    · exact .inl ⟨hi.symm, ht⟩
    · refine .inr ⟨?_, by rw [ht, setPc_runState, hrun]⟩
      rintro rfl
      rw [fetchInstr_o s _ .stop hop decodeOpcode_stop] at hfetch
      simp only [Except.ok.injEq, Prod.mk.injEq] at hfetch
      exact hstop hfetch.1.symm

/-! ## The opcode bytes of the groups as ranges (R92) -/

/-- The opcode bytes of the groups that write A: ADD, SUB and XOR (R92 (c)). -/
def accumulatorOpcode (op : Nat) : Prop :=
  (0x80 ≤ op ∧ op ≤ 0x87) ∨ (0x90 ≤ op ∧ op ≤ 0x97) ∨ (0xA8 ≤ op ∧ op ≤ 0xAF)

theorem opcode_ld_range (y z : Reg8) :
    0x40 + 8 * y.code.toNat ≤ (Instr.ld y z).opcode.toNat ∧ (Instr.ld y z).opcode.toNat ≤ 0x47 + 8 * y.code.toNat := by
  cases y <;> cases z <;> decide

theorem opcode_inc_toNat (k : Reg8) : (Instr.inc k).opcode.toNat = 0x04 + 8 * k.code.toNat := by
  cases k <;> decide

theorem opcode_inc_mask (k : Reg8) : (Instr.inc k).opcode &&& 0xC7#8 = 0x04#8 := by
  cases k <;> decide

theorem accumulatorOpcode_of_group (i : Instr) (k : Reg8) (hi : i = .add k ∨ i = .sub k ∨ i = .xor k) :
    accumulatorOpcode i.opcode.toNat := by
  rcases hi with rfl | rfl | rfl
  · exact .inl (by cases k <;> decide)
  · exact .inr (.inl (by cases k <;> decide))
  · exact .inr (.inr (by cases k <;> decide))

theorem opcode_of_jump (i : Instr) (a16 : Word) (e8 : Byte)
    (hi : i = .jpA16 a16 ∨ i = .jrE8 e8 ∨ i = .jrNzE8 e8 ∨ i = .jrZE8 e8) :
    i.opcode.toNat = 0xC3 ∨ i.opcode.toNat = 0x18 ∨ i.opcode.toNat = 0x20 ∨ i.opcode.toNat = 0x28 := by
  rcases hi with rfl | rfl | rfl | rfl
  · exact .inl rfl
  · exact .inr (.inl rfl)
  · exact .inr (.inr (.inl rfl))
  · exact .inr (.inr (.inr rfl))

/-! ## A store leaves the registers (R59) -/

theorem writeByte_ok_getSlot (s t : State) (a : Word) (v : Byte) (r : Slot) (h : writeByte s a v = .ok t) :
    getSlot t r = getSlot s r := by
  rw [writeByte_ok_frame s t a v h, getSlot_setWork]

theorem writeByte_ok_pc (s t : State) (a : Word) (v : Byte) (h : writeByte s a v = .ok t) : t.pc = s.pc := by
  rw [writeByte_ok_frame s t a v h, setWork_pc]

/-! ## The writers of a slot, of `pc` and of `run_state` (R29, R39) -/

/-- The forms of instruction that can change slot `r`: a move to it, an increment of it, and for A and F the groups that
write them. -/
theorem exec_next_slot_changed (i : Instr) (s t : State) (r : Slot) (h : exec i s = .next t)
    (hr : getSlot t r ≠ getSlot s r) :
    (∃ y z, i = .ld y z ∧ operandSlot y = some r) ∨
    (∃ k, i = .inc k ∧ (operandSlot k = some r ∨ r = .f)) ∨
    (∃ k, (i = .add k ∨ i = .sub k ∨ i = .xor k) ∧ (r = .a ∨ r = .f)) := by
  rcases exec_next_cases i s t h with ⟨y, z, q, _, hi, hq, -, rfl⟩ | ⟨_, _, -, -, hw⟩ | ⟨k, q, hi, hq, rfl⟩ |
    ⟨_, u, hi, -, hw, rfl⟩ | ⟨k, _, _, hi, -, rfl⟩ | ⟨_, -, ht⟩ | ⟨-, rfl⟩
  · refine .inl ⟨y, z, hi, ?_⟩
    by_contra hne
    exact hr (getSlot_setSlot_other s q r _ (fun e => hne (by rw [hq, e])))
  · exact absurd (writeByte_ok_getSlot s t _ _ r hw) hr
  · refine .inr (.inl ⟨k, hi, ?_⟩)
    by_contra hne
    obtain ⟨hk, hf⟩ := not_or.1 hne
    have hq' : r ≠ q := fun e => hk (by rw [hq, e])
    exact hr (by rw [getSlot_setFlags, if_neg hf, getSlot_setSlot_other s q r _ hq'])
  · refine .inr (.inl ⟨.mhl, hi, .inr ?_⟩)
    by_contra hf
    exact hr (by rw [getSlot_setFlags, if_neg hf, writeByte_ok_getSlot s u _ _ r hw])
  · refine .inr (.inr ⟨k, hi, ?_⟩)
    by_contra hne
    obtain ⟨ha, hf⟩ := not_or.1 hne
    exact hr (by rw [getSlot_setFlags, if_neg hf, getSlot_setSlot_other s .a r _ ha])
  · rw [ht] at hr
    exact absurd (getSlot_setPc s t.pc r) hr
  · exact absurd (getSlot_setRunState s .halted r) hr

theorem operandSlot_inj (j k : Reg8) (h : operandSlot j = operandSlot k) : j = k := by
  cases j <;> cases k <;> cases h <;> rfl

/-- The opcodes that can change the slot of operand code `k`: the increment and the eight moves of that code, and for A the
groups that write it. -/
theorem operand_slot_writers (i : Instr) (s t : State) (k : Reg8) (r : Slot) (hk : operandSlot k = some r)
    (h : exec i s = .next t) (hr : getSlot t r ≠ getSlot s r) :
    i.opcode.toNat = 0x04 + 8 * k.code.toNat ∨
    (0x40 + 8 * k.code.toNat ≤ i.opcode.toNat ∧ i.opcode.toNat ≤ 0x47 + 8 * k.code.toNat) ∨
    (r = .a ∧ accumulatorOpcode i.opcode.toNat) := by
  have hf : r ≠ .f := operandSlot_ne_f k r hk
  rcases exec_next_slot_changed i s t r h hr with ⟨y, z, rfl, hy⟩ | ⟨j, rfl, hj⟩ | ⟨j, hi, ha⟩
  · obtain rfl := operandSlot_inj y k (hy.trans hk.symm)
    exact .inr (.inl (opcode_ld_range y z))
  · obtain rfl := operandSlot_inj j k ((hj.resolve_right hf).trans hk.symm)
    exact .inl (opcode_inc_toNat j)
  · exact .inr (.inr ⟨ha.resolve_right hf, accumulatorOpcode_of_group i j hi⟩)

/-- The opcodes that can change a slot other than A and F. -/
theorem plain_slot_writers (i : Instr) (s t : State) (k : Reg8) (r : Slot) (hk : operandSlot k = some r) (ha : r ≠ .a)
    (h : exec i s = .next t) (hr : getSlot t r ≠ getSlot s r) :
    i.opcode.toNat = 0x04 + 8 * k.code.toNat ∨
    (0x40 + 8 * k.code.toNat ≤ i.opcode.toNat ∧ i.opcode.toNat ≤ 0x47 + 8 * k.code.toNat) :=
  (operand_slot_writers i s t k r hk h hr).imp_right (·.resolve_right (fun hacc => ha hacc.1))

/-- The opcodes that can change F: the increment group and the groups that write A (R126). -/
theorem f_writers (i : Instr) (s t : State) (h : exec i s = .next t) (hf : getSlot t .f ≠ getSlot s .f) :
    i.opcode &&& 0xC7#8 = 0x04#8 ∨ accumulatorOpcode i.opcode.toNat := by
  rcases exec_next_slot_changed i s t .f h hf with ⟨y, _, -, hy⟩ | ⟨k, rfl, -⟩ | ⟨k, hi, -⟩
  · exact absurd rfl (operandSlot_ne_f y .f hy)
  · exact .inl (opcode_inc_mask k)
  · exact .inr (accumulatorOpcode_of_group i k hi)

/-- The opcodes whose `exec` can change `pc`: `JP` and the relative jumps. -/
theorem pc_writers (i : Instr) (s t : State) (h : exec i s = .next t) (hpc : t.pc ≠ s.pc) :
    i.opcode.toNat = 0xC3 ∨ i.opcode.toNat = 0x18 ∨ i.opcode.toNat = 0x20 ∨ i.opcode.toNat = 0x28 := by
  rcases exec_next_cases i s t h with ⟨_, _, r, v, -, -, -, rfl⟩ | ⟨_, _, -, -, hw⟩ | ⟨_, r, -, -, rfl⟩ |
    ⟨_, u, -, -, hw, rfl⟩ | ⟨_, _, _, -, -, rfl⟩ | ⟨_, hi, -⟩ | ⟨-, rfl⟩
  · exact absurd (by simp) hpc
  · exact absurd (writeByte_ok_pc _ _ _ _ hw) hpc
  · exact absurd (by simp) hpc
  · exact absurd (writeByte_ok_pc _ u _ _ hw) hpc
  · exact absurd (by simp) hpc
  · exact opcode_of_jump i _ _ hi
  · exact absurd (by simp) hpc

/-- `STOP` alone can change `run_state`. -/
theorem runState_writers (i : Instr) (s t : State) (h : exec i s = .next t) (hrun : t.runState ≠ s.runState) :
    i.opcode.toNat = 0x10 := by
  rcases exec_next_runState i s t h with ⟨rfl, -⟩ | ⟨-, hsame⟩
  · rfl
  · exact absurd hsame hrun

/-- Settles O49, one writer lemma per field. -/
theorem slotsChangeOnlyByTheirWriters : Obligations.SlotsChangeOnlyByTheirWriters := by
  intro i s t h
  exact ⟨plain_slot_writers i s t .b .b rfl (by decide) h, plain_slot_writers i s t .c .c rfl (by decide) h,
    plain_slot_writers i s t .d .d rfl (by decide) h, plain_slot_writers i s t .e .e rfl (by decide) h,
    plain_slot_writers i s t .h .h rfl (by decide) h, plain_slot_writers i s t .l .l rfl (by decide) h,
    fun ha => (operand_slot_writers i s t .a .a rfl h ha).imp_right (.imp_right (·.2)),
    f_writers i s t h, pc_writers i s t h, runState_writers i s t h⟩

end Sys2Proof.Proofs.Writers
end

section
/-! The address map and the byte accessors (20_memory.md R53 to R66, R78): the accessors range by range, where they
succeed and fail, and the sized reads. -/
namespace Sys2Proof.Proofs.Accessors
open Sys2Proof.Machine

/-! ## The mapping function (R53) -/

/-- Settles O4, one case per row of the table. -/
theorem mapFollowsTheRegionTable : Obligations.MapFollowsTheRegionTable := by
  intro a workBank romBank videoBank
  rcases map_cases a workBank romBank videoBank with ⟨h, e⟩ | ⟨h, h', e⟩ | ⟨h, h', e⟩ | ⟨h, h', e⟩ | ⟨h, h', e⟩ |
    ⟨h, h', e⟩ | ⟨h, h', e⟩ | ⟨h, h', e⟩ | ⟨h, h', e⟩ | ⟨h, h', e⟩ | ⟨h, h', e⟩ | ⟨h, e⟩
  all_goals rw [e]
  · exact ⟨h, rfl⟩
  · exact ⟨h, h', rfl⟩
  · have hbase : (if videoBank then 0x8000 else 0x6000) ≤ a.toNat := by split <;> omega
    exact ⟨h, h', (Nat.sub_add_cancel hbase).symm⟩
  · exact ⟨h, h', (Nat.add_sub_of_le h).symm⟩
  · exact ⟨h, h', (Nat.add_sub_of_le h).symm⟩
  · exact ⟨h, h', by rw [← Nat.add_assoc, Nat.add_sub_of_le h]⟩
  · exact ⟨h, h'⟩
  · exact ⟨h, h', (Nat.add_sub_of_le h).symm⟩
  · exact ⟨h, h'⟩
  · exact ⟨h, h', (Nat.add_sub_of_le h).symm⟩
  · exact ⟨h, h', (Nat.add_sub_of_le h).symm⟩
  · exact h

/-! ## The accessors, range by range (R58, R59, R62, R63) -/

section Ranges
variable (s : State) (a : Word)

theorem readByte_romFixed (h : a.toNat ≤ 0x3FFF) : readByte s a = readCart s a a.toNat := by
  rw [readByte, region, map_romFixed a _ _ _ h]

theorem readByte_romSwitch (h : 0x4000 ≤ a.toNat) (h' : a.toNat ≤ 0x7FFF) :
    readByte s a = readCart s a (a.toNat + (s.romBank - 1) * 0x4000) := by
  rw [readByte, region, map_romSwitch a _ _ _ h h']

theorem readByte_workSwitch (h : 0xD000 ≤ a.toNat) (h' : a.toNat ≤ 0xDFFF) :
    readByte s a = readWork s a (a.toNat - 0xD000 + s.workBank * 0x1000) := by
  rw [readByte, region, map_workSwitch a _ _ _ h h']

theorem writeByte_workSwitch (v : Byte) (h : 0xD000 ≤ a.toNat) (h' : a.toNat ≤ 0xDFFF) :
    writeByte s a v = writeWork s a (a.toNat - 0xD000 + s.workBank * 0x1000) v := by
  rw [writeByte, region, map_workSwitch a _ _ _ h h']

/-- Both ranges are rows of the table with no offset and no backing store. -/
theorem region_illegal (h : (0xE000 ≤ a.toNat ∧ a.toNat ≤ 0xFDFF) ∨ (0xFEA0 ≤ a.toNat ∧ a.toNat ≤ 0xFEFF)) :
    region s a = .illegalEcho ∨ region s a = .illegalGap :=
  h.imp (fun h => map_illegalEcho a _ _ _ h.1 h.2) (fun h => map_illegalGap a _ _ _ h.1 h.2)

theorem readByte_illegal (h : region s a = .illegalEcho ∨ region s a = .illegalGap) :
    readByte s a = .error (.illegalAddress a) := by
  rcases h with h | h <;> rw [readByte, h]

theorem writeByte_illegal (v : Byte) (h : region s a = .illegalEcho ∨ region s a = .illegalGap) :
    writeByte s a v = .error (.illegalAddress a) := by
  rcases h with h | h <;> rw [writeByte, h]

/-! ## The two backing stores (R62) -/

variable (o : Nat)

theorem readCart_ok (v : Byte) (h : s.cart[o]? = some v) : readCart s a o = .ok v := by
  rw [readCart, h]

theorem readCart_outside (h : s.cart.length ≤ o) : readCart s a o = .error (.backingOutOfRange a o) := by
  rw [readCart, List.getElem?_eq_none h]

theorem readCart_succeeds_iff : (∃ v, readCart s a o = .ok v) ↔ o < s.cart.length := by
  constructor
  · rintro ⟨v, hv⟩
    by_contra hle
    rw [readCart_outside s a o (by omega)] at hv
    cases hv
  · intro h
    exact ⟨s.cart[o], readCart_ok s a o _ (List.getElem?_eq_getElem h)⟩

theorem readWork_outside (h : Config.workSize ≤ o) : readWork s a o = .error (.backingOutOfRange a o) := by
  rw [readWork, if_neg (by omega)]

theorem writeWork_outside (v : Byte) (h : Config.workSize ≤ o) :
    writeWork s a o v = .error (.backingOutOfRange a o) := by
  rw [writeWork, if_neg (by omega)]

end Ranges

/-- Settles O5: the map's two ROM rows, and the reads of `CART` at their offsets. -/
theorem romOffsetsFollowTheBank : Obligations.RomOffsetsFollowTheBank := by
  refine ⟨map_romFixed, ?_, ?_, ?_, ?_⟩
  · intro a workBank romBank d videoBank h h' hbank
    refine ⟨_, map_romSwitch a workBank romBank videoBank h h', rfl, ?_⟩
    have hd : romBank + d - 1 = romBank - 1 + d := Nat.sub_add_comm hbank
    rw [map_romSwitch a workBank (romBank + d) videoBank h h', hd, Nat.add_mul, Nat.add_assoc]
  · intro s a v hbank h hv
    rcases Nat.lt_or_ge 0x3FFF a.toNat with hs | hf
    · rw [readByte_romSwitch s a hs h, hbank]
      exact readCart_ok s a _ v hv
    · exact (readByte_romFixed s a hf).trans (readCart_ok s a _ v hv)
  · exact fun s a v h hv => (readByte_romFixed s a h).trans (readCart_ok s a _ v hv)
  · exact fun s a v h h' _ hv => (readByte_romSwitch s a h h').trans (readCart_ok s a _ v hv)

/-- Settles O6: the map's two Work RAM rows; that no offset has two addresses is `region_work_inj`. -/
theorem workRamOffsetsNeverAlias : Obligations.WorkRamOffsetsNeverAlias := by
  refine ⟨map_workFixed, fun a workBank romBank videoBank h h' _ => map_workSwitch a workBank romBank videoBank h h',
    ?_, ?_⟩
  · intro a romBank videoBank h h'
    rcases Nat.lt_or_ge 0xCFFF a.toNat with hs | hf
    · right
      have hoffset : a.toNat - 0xD000 + 1 * Config.workBankSize = a.toNat - 0xC000 := by
        rw [Config.workBankSize]
        omega
      rw [map_workSwitch a 1 romBank videoBank hs h', hoffset]
    · exact .inl (map_workFixed a 1 romBank videoBank h hf)
  · intro a b o workBank romBank videoBank hbank ha hb
    exact region_work_inj { State.reset with workBank, romBank, videoBank } a b o hbank ha hb

/-- Settles O12: a read or a write of the range is one of its backing store, at the offset of the map. -/
theorem offsetsOutsideTheStoreFault : Obligations.OffsetsOutsideTheStoreFault := by
  refine ⟨?_, ?_, ?_⟩
  · intro s a h hlen
    rw [readByte_romFixed s a h, readCart_outside s a _ hlen]
  · rintro s a _ h h' rfl hlen
    rw [readByte_romSwitch s a h h', readCart_outside s a _ hlen]
  · rintro s a v _ h h' rfl hlen
    rw [readByte_workSwitch s a h h', writeByte_workSwitch s a v h h', readWork_outside s a _ hlen,
      writeWork_outside s a _ v hlen]
    exact ⟨rfl, rfl⟩

/-! ## Where an access succeeds (R78) -/

theorem readByte_succeeds_iff (s : State) (a : Word) :
    (∃ v, readByte s a = .ok v) ↔
      (a.toNat ≤ 0x3FFF ∧ a.toNat < s.cart.length) ∨
      (0x4000 ≤ a.toNat ∧ a.toNat ≤ 0x7FFF ∧ a.toNat + (s.romBank - 1) * 0x4000 < s.cart.length) ∨
      (0xC000 ≤ a.toNat ∧ a.toNat ≤ 0xCFFF) ∨
      (0xD000 ≤ a.toNat ∧ a.toNat ≤ 0xDFFF ∧ a.toNat - 0xD000 + s.workBank * 0x1000 < 262144) := by
  constructor
  · rintro ⟨v, hv⟩
    rcases readByte_ok_range s a v hv with h | ⟨h, h'⟩
    · rcases Nat.lt_or_ge 0x3FFF a.toNat with hs | hf
      · rw [readByte_romSwitch s a hs h] at hv
        exact .inr (.inl ⟨hs, h, (readCart_succeeds_iff s a _).1 ⟨v, hv⟩⟩)
      · rw [readByte_romFixed s a hf] at hv
        exact .inl ⟨hf, (readCart_succeeds_iff s a _).1 ⟨v, hv⟩⟩
    · rcases Nat.lt_or_ge 0xCFFF a.toNat with hs | hf
      · refine .inr (.inr (.inr ⟨hs, h', ?_⟩))
        by_contra hle
        rw [readByte_workSwitch s a hs h', readWork_outside s a _ (Nat.le_of_not_lt hle)] at hv
        cases hv
      · exact .inr (.inr (.inl ⟨h, hf⟩))
  · rintro (⟨h, hlen⟩ | ⟨h, h', hlen⟩ | hwork)
    · rw [readByte_romFixed s a h]
      exact (readCart_succeeds_iff s a _).2 hlen
    · rw [readByte_romSwitch s a h h']
      exact (readCart_succeeds_iff s a _).2 hlen
    · obtain ⟨o, -, hread, -⟩ := workRam_accesses s a hwork
      exact ⟨_, hread⟩

theorem writeByte_succeeds_iff (s : State) (a : Word) (v : Byte) :
    (∃ t, writeByte s a v = .ok t) ↔
      (0xC000 ≤ a.toNat ∧ a.toNat ≤ 0xCFFF) ∨
      (0xD000 ≤ a.toNat ∧ a.toNat ≤ 0xDFFF ∧ a.toNat - 0xD000 + s.workBank * 0x1000 < 262144) := by
  constructor
  · rintro ⟨t, ht⟩
    obtain ⟨h, h'⟩ := writeByte_ok_range s t a v ht
    rcases Nat.lt_or_ge 0xCFFF a.toNat with hs | hf
    · refine .inr ⟨hs, h', ?_⟩
      by_contra hle
      rw [writeByte_workSwitch s a v hs h', writeWork_outside s a _ v (Nat.le_of_not_lt hle)] at ht
      cases ht
    · exact .inl ⟨h, hf⟩
  · intro hwork
    obtain ⟨o, -, -, hwrite⟩ := workRam_accesses s a hwork
    exact ⟨_, hwrite v⟩

theorem fetchByte_succeeds_iff (s : State) : (∃ v, readByte s s.pc = .ok v) ↔ ∃ p, fetchByte s = .ok p := by
  constructor
  · rintro ⟨v, hv⟩
    exact ⟨_, fetchByte_ok s v hv⟩
  · rintro ⟨⟨v, t⟩, hp⟩
    exact ⟨v, (fetchByte_cases s t v hp).1⟩

/-- Settles O7, one lemma per kind of access. -/
theorem accessSucceedsExactlyWhere : Obligations.AccessSucceedsExactlyWhere :=
  fun s a => ⟨readByte_succeeds_iff s a, fetchByte_succeeds_iff s, writeByte_succeeds_iff s a⟩

/-! ## Fetches (R63, R65) -/

/-- One address further, as a number (R65). -/
theorem word_succ (a : Word) : a + 1#16 = BitVec.ofNat 16 ((a.toNat + 1) % 65536) := by
  apply BitVec.eq_of_toNat_eq
  simp

/-- Settles O15, by the two laws of the fetch. -/
theorem fetchByteReadsAndAdvances : Obligations.FetchByteReadsAndAdvances := by
  refine fun s => ⟨fun b hb => ?_, fetchByte_error s⟩
  rw [fetchByte_ok s b hb, word_succ]
  rfl

/-- A fault of the opcode fetch is the fault of the step (R79, R168). -/
theorem step_of_opcode_fault (s : State) (r : Fault) (hrun : s.runState = .running)
    (h : readByte s s.pc = .error r) : step s = .fault r := by
  rw [step_running s hrun, fetchInstr, fetchByte_error s r h]

/-- Settles O9: both ranges are rows of the table that every access refuses. -/
theorem illegalAddressesAlwaysFault : Obligations.IllegalAddressesAlwaysFault := by
  intro s a v h
  have hregion := region_illegal s a h
  refine ⟨readByte_illegal s a hregion, writeByte_illegal s a v hregion, ?_⟩
  rintro hrun rfl
  exact step_of_opcode_fault s _ hrun (readByte_illegal s s.pc hregion)

/-! ## Reads of more than one byte (R64, R66) -/

theorem readBytes_succ_ok_iff (s : State) (a : Word) (n : Nat) (bs : List Byte) :
    readBytes s a (n + 1) = .ok bs ↔
      ∃ b rest, readByte s a = .ok b ∧ readBytes s (a + 1#16) n = .ok rest ∧ bs = b :: rest := by
  rw [readBytes]
  cases readByte s a with
  | error r => simp
  | ok b => cases readBytes s (a + 1#16) n <;> simp [eq_comm]

theorem readBytes_succ_error_iff (s : State) (a : Word) (n : Nat) (r : Fault) :
    readBytes s a (n + 1) = .error r ↔
      readByte s a = .error r ∨ ∃ b, readByte s a = .ok b ∧ readBytes s (a + 1#16) n = .error r := by
  rw [readBytes]
  cases readByte s a with
  | error q => simp
  | ok b => cases readBytes s (a + 1#16) n <;> simp

/-- The bytes a sequence of reads answers are the bytes `read_byte` gives, in increasing order. -/
theorem readBytes_ok_iff (s : State) (n : Nat) (a : Word) (bs : List Byte) :
    readBytes s a n = .ok bs ↔
      bs.length = n ∧ ∀ i v, bs[i]? = some v → readByte s (a + BitVec.ofNat 16 i) = .ok v := by
  induction n generalizing a bs with
  | zero =>
    rw [List.length_eq_zero_iff, readBytes, Except.ok.injEq]
    constructor
    · rintro rfl
      exact ⟨rfl, by simp⟩
    · exact fun h => h.1.symm
  | succ n ih =>
    rw [readBytes_succ_ok_iff]
    constructor
    · rintro ⟨b, rest, hb, hrest, rfl⟩
      obtain ⟨hlen, hbytes⟩ := (ih _ _).1 hrest
      refine ⟨by rw [List.length_cons, hlen], fun i v hv => ?_⟩
      cases i with
      | zero =>
        obtain rfl : b = v := by simpa using hv
        simpa using hb
      | succ i =>
        rw [← word_add_succ]
        exact hbytes i v (by simpa using hv)
    · rintro ⟨hlen, hbytes⟩
      cases bs with
      | nil => cases hlen
      | cons b rest =>
        refine ⟨b, rest, by simpa using hbytes 0 b rfl, (ih _ _).2 ⟨Nat.succ.inj hlen, fun i v hv => ?_⟩, rfl⟩
        rw [word_add_succ]
        exact hbytes (i + 1) v (by simpa using hv)

/-- A sequence of reads faults with the fault of the first byte that cannot be read (R79). -/
theorem readBytes_error_iff (s : State) (n : Nat) (a : Word) (r : Fault) :
    readBytes s a n = .error r ↔
      ∃ i, i < n ∧ readByte s (a + BitVec.ofNat 16 i) = .error r ∧
        ∀ j, j < i → ∃ v, readByte s (a + BitVec.ofNat 16 j) = .ok v := by
  induction n generalizing a with
  | zero => simp [readBytes]
  | succ n ih =>
    rw [readBytes_succ_error_iff]
    constructor
    · rintro (hr | ⟨b, hb, hrest⟩)
      · exact ⟨0, Nat.succ_pos n, by simpa using hr, by simp⟩
      · obtain ⟨i, hi, hr, hbefore⟩ := (ih _).1 hrest
        refine ⟨i + 1, Nat.succ_lt_succ hi, by rw [← word_add_succ, hr], fun j hj => ?_⟩
        cases j with
        | zero => exact ⟨b, by simpa using hb⟩
        | succ j =>
          rw [← word_add_succ]
          exact hbefore j (Nat.lt_of_succ_lt_succ hj)
    · rintro ⟨i, hi, hr, hbefore⟩
      cases i with
      | zero => exact .inl (by simpa using hr)
      | succ i =>
        obtain ⟨b, hb⟩ := hbefore 0 (Nat.succ_pos i)
        refine .inr ⟨b, by simpa using hb, (ih _).2 ⟨i, Nat.lt_of_succ_lt_succ hi, ?_, fun j hj => ?_⟩⟩
        · rw [word_add_succ, hr]
        · rw [word_add_succ]
          exact hbefore (j + 1) (Nat.succ_lt_succ hj)

/-- Settles O13: the check comes first, and then the sequence of reads. -/
theorem sizedReadStaysInOneRegion : Obligations.SizedReadStaysInOneRegion := by
  intro s a n hn
  have hlast : a.toNat + n - 1 = a.toNat + (n - 1) := Nat.add_sub_assoc hn _
  rw [hlast]
  refine ⟨fun hcross => by rw [readSized, if_pos hcross], fun hend hkind => ?_⟩
  have hbytes : readSized s a n = readBytes s a n := by
    rw [readSized, if_neg]
    rintro (h | h)
    · omega
    · exact h hkind
  rw [hbytes]
  exact ⟨readBytes_ok_iff s n a, readBytes_error_iff s n a⟩

/-- Settles O14: the word read is the two bytes, the byte of the higher address above the other. -/
theorem wordReadIsLittleEndian : Obligations.WordReadIsLittleEndian := by
  intro s a lo hi hlo hhi ha hkind
  exact ⟨_, readWord_ok s a lo hi hlo hhi ha hkind, by rw [← littleEndian_pair, littleEndian_toNat]⟩

end Sys2Proof.Proofs.Accessors
end

section
/-! What a store changes (20_memory.md R59, R68, R70, R74): one byte of Work RAM, seen by every later read and fetch of its
address and by no other; and the instructions that store nothing. -/
namespace Sys2Proof.Proofs.Stores
open Sys2Proof.Machine

/-- Settles O8, by the laws of `write_byte`. -/
theorem writeIsReadBackAndNothingElseMoves : Obligations.WriteIsReadBackAndNothingElseMoves := by
  intro s t a v hs h
  have hwf := hs.work_wf
  exact ⟨readByte_writeByte_same s t a v hwf h,
    fun b hb => readByte_writeByte_other s t a b v hwf hs.workBank_pos h hb,
    fun o hf hw => writeByte_ok_work s t a v o hwf h hf hw,
    writeByte_ok_frame s t a v h, writeByte_ok_wf s t a v hwf h⟩

/-! ## The instructions that store -/

theorem exec_ldMhl_next (z : Reg8) (s t : State) :
    exec (Instr.ld .mhl z) s = .next t ↔ ∃ v, readOp z s = .ok v ∧ writeByte s (getPair s .hl) v = .ok t := by
  rw [exec_ld, move_next]
  rfl

theorem exec_incMhl_next (s t : State) :
    exec .incMhl s = .next t ↔
      ∃ v u, readByte s (getPair s .hl) = .ok v ∧ writeByte s (getPair s .hl) (v + 1#8) = .ok u ∧
        t = setFlags u (inc8 v (carryFlag s)).flags :=
  increment_next .mhl s t

/-- A completed store has written one byte at `RP[HL]`, and what it did besides no read can tell. -/
theorem store_next (i : Instr) (s t : State) (hi : (∃ z, i = Instr.ld .mhl z) ∨ i = .incMhl)
    (h : exec i s = .next t) :
    ∃ v u, writeByte s (getPair s .hl) v = .ok u ∧ t.work = u.work ∧ ∀ a, readByte t a = readByte u a := by
  rcases hi with ⟨z, rfl⟩ | rfl
  · obtain ⟨v, -, hw⟩ := (exec_ldMhl_next z s t).1 h
    exact ⟨v, t, hw, rfl, fun _ => rfl⟩
  · obtain ⟨v, u, -, hw, rfl⟩ := (exec_incMhl_next s t).1 h
    exact ⟨v + 1#8, u, hw, rfl, readByte_setFlags u _⟩

/-- Settles O50: a completed store is one `write_byte` at `RP[HL]`. -/
theorem storesChangeOnlyTheByteAtHl : Obligations.StoresChangeOnlyTheByteAtHl := by
  intro i s t hs hi h
  obtain ⟨v, u, hw, hwork, hread⟩ := store_next i s t hi h
  refine ⟨fun a ha => ?_, fun o hf hsw => ?_⟩
  · rw [hread, readByte_writeByte_other s u _ a v hs.work_wf hs.workBank_pos hw ha]
  · rw [hwork, writeByte_ok_work s u _ v o hs.work_wf hw hf hsw]

/-- Settles O16: the fetch reads at `pc` the byte the store wrote at `RP[HL]`. -/
theorem storedByteIsFetchedNext : Obligations.StoredByteIsFetchedNext := by
  refine ⟨fun s t z src hs hz h hpc => ?_, fun s t v hs hv h hpc => ?_⟩
  · obtain ⟨v, hv, hw⟩ := (exec_ldMhl_next z s t).1 h
    rw [readOp_slot z src s hz] at hv
    obtain rfl := Except.ok.inj hv
    apply fetchByte_ok
    rw [hpc, readByte_writeByte_same s t _ _ hs.work_wf hw]
  · obtain ⟨w, u, hread, hw, rfl⟩ := (exec_incMhl_next s t).1 h
    obtain rfl := Except.ok.inj (hread.symm.trans hv)
    apply fetchByte_ok
    rw [hpc, readByte_setFlags, readByte_writeByte_same s u _ _ hs.work_wf hw]

/-! ## The instructions that store nothing (R68) -/

theorem exec_next_work (i : Instr) (s t : State) (hld : ∀ z, i ≠ Instr.ld .mhl z) (hinc : i ≠ .incMhl)
    (h : exec i s = .next t) : t.work = s.work := by
  rcases exec_next_cases i s t h with ⟨_, _, _, _, -, -, -, rfl⟩ | ⟨z, _, hi, -, -⟩ | ⟨_, _, -, -, rfl⟩ |
    ⟨_, _, hi, -, -, -⟩ | ⟨_, _, _, -, -, rfl⟩ | ⟨_, -, ht⟩ | ⟨-, rfl⟩
  · rw [setSlot_work]
  · exact absurd hi (hld z)
  · rw [setFlags_work, setSlot_work]
  · exact absurd hi hinc
  · rw [setFlags_work, setSlot_work]
  · rw [ht, setPc_work]
  · rfl

/-- Settles O51: `work`, the cartridge and the selectors stay, and a read depends on nothing else. -/
theorem otherInstructionsStoreNothing : Obligations.OtherInstructionsStoreNothing := by
  intro i s t hld hinc h
  have hwork : t.work = s.work := exec_next_work i s t hld hinc h
  obtain ⟨-, hcart, hwb, hrb, hvb⟩ := exec_next_frame i s t h
  have hregion (a : Word) : region t a = region s a := by rw [region, region, hwb, hrb, hvb]
  exact ⟨hwork, fun a => readByte_congr s t a hcart hwork (hregion a)⟩

end Sys2Proof.Proofs.Stores
end

section
/-! The decoder and the encoder (30_encoding.md R90 to R99): each inverts the other, the opcode byte tells the length, and
which bytes have no handler; and the step seen from the bytes at `pc` (R102 to R108, R140). -/
namespace Sys2Proof.Proofs.Encoding
open Sys2Proof.Machine

/-! ## Decoding what was encoded (R90, R91) -/

/-- The three formats of a well-formed instruction (R91): its operand bytes, and what its opcode byte decides. -/
theorem format_cases (i : Instr) (hwf : i.wf = true) :
    (encode i = [i.opcode] ∧ decodeOpcode i.opcode = .o i) ∨
    (∃ mk e8, i = mk e8 ∧ encode i = [i.opcode, e8] ∧ decodeOpcode i.opcode = .oe mk) ∨
    ∃ lo hi, i = .jpA16 (hi ++ lo) ∧ encode i = [i.opcode, lo, hi] := by
  by_cases h : i.operandBytes = []
  · exact .inl ⟨by rw [encode, h], decodeOpcode_opcode i hwf h⟩
  · right
    cases i with
    | jrE8 e8 => exact .inl ⟨.jrE8, e8, rfl, rfl, decodeOpcode_jr⟩
    | jrNzE8 e8 => exact .inl ⟨.jrNzE8, e8, rfl, rfl, decodeOpcode_jrNz⟩
    | jrZE8 e8 => exact .inl ⟨.jrZE8, e8, rfl, rfl, decodeOpcode_jrZ⟩
    | jpA16 a16 => exact .inr ⟨_, _, by rw [← littleEndian_pair, littleEndian_split], rfl⟩
    | _ => exact absurd rfl h

/-- Settles O17, one case per format. -/
theorem decodeInvertsEncode : Obligations.DecodeInvertsEncode := by
  intro i rest hwf
  rcases format_cases i hwf with ⟨henc, hd⟩ | ⟨mk, e8, rfl, henc, hd⟩ | ⟨lo, hi, rfl, henc⟩
  · rw [henc]
    exact decode_o i.opcode i rest hd
  · rw [henc]
    exact decode_oe (mk e8).opcode e8 mk rest hd
  · rw [henc]
    exact decode_oa 0xC3#8 lo hi .jpA16 rest decodeOpcode_jp

/-! ## Encoding what was decoded (R95, R99) -/

/-- An opcode byte of format O is the whole encoding; the other formats contradict the hypothesis. -/
theorem encode_of_decodeOpcode_o (op : Byte) (i : Instr) (h : decodeOpcode op = .o i) :
    i.wf = true ∧ encode i = [op] := by
  rcases decodeOpcode_cases op with ⟨j, hd, hwf, hop, hbytes⟩ | ⟨-, hd⟩ | ⟨-, hd⟩ | ⟨-, hd⟩ | ⟨-, hd⟩ <;>
    cases h.symm.trans hd
  exact ⟨hwf, by rw [encode, hop, hbytes]⟩

theorem encode_of_decodeOpcode_oe (op e8 : Byte) (mk : Byte → Instr) (h : decodeOpcode op = .oe mk) :
    (mk e8).wf = true ∧ encode (mk e8) = [op, e8] := by
  rcases decodeOpcode_cases op with ⟨_, hd, -⟩ | ⟨rfl, hd⟩ | ⟨rfl, hd⟩ | ⟨rfl, hd⟩ | ⟨-, hd⟩ <;>
    cases h.symm.trans hd
  · exact ⟨rfl, rfl⟩
  · exact ⟨rfl, rfl⟩
  · exact ⟨rfl, rfl⟩

theorem encode_of_decodeOpcode_oa (op lo hi : Byte) (mk : Word → Instr) (h : decodeOpcode op = .oa mk) :
    (mk (hi ++ lo)).wf = true ∧ encode (mk (hi ++ lo)) = [op, lo, hi] := by
  rcases decodeOpcode_cases op with ⟨_, hd, -⟩ | ⟨-, hd⟩ | ⟨-, hd⟩ | ⟨-, hd⟩ | ⟨rfl, hd⟩ <;>
    cases h.symm.trans hd
  refine ⟨rfl, ?_⟩
  rw [encode, Instr.operandBytes, append_low, append_high]
  rfl

/-- Settles O18, one case per format of the opcode byte. -/
theorem encodeInvertsDecode : Obligations.EncodeInvertsDecode := by
  intro bytes rest i h
  rcases decode_ok_cases bytes rest i h with ⟨op, rfl, hd⟩ | ⟨op, e8, mk, rfl, hd, rfl⟩ | ⟨op, lo, hi, mk, rfl, hd, rfl⟩
  · obtain ⟨hwf, henc⟩ := encode_of_decodeOpcode_o op i hd
    exact ⟨hwf, by rw [henc]; rfl⟩
  · obtain ⟨hwf, henc⟩ := encode_of_decodeOpcode_oe op e8 mk hd
    exact ⟨hwf, by rw [henc]; rfl⟩
  · obtain ⟨hwf, henc⟩ := encode_of_decodeOpcode_oa op lo hi mk hd
    exact ⟨hwf, by rw [henc]; rfl⟩

/-! ## The length an opcode byte tells (R98) -/

/-- An instruction that starts with `op` has `n` bytes: `n` bytes decode, and fewer are refused. -/
def DecodesWithLength (op : Byte) (tail : List Byte) (n : Nat) : Prop :=
  (n ≤ tail.length + 1 → ∃ i, decode (op :: tail) = .ok (i, (op :: tail).drop n) ∧ i.opcode = op) ∧
  (tail.length + 1 < n → decode (op :: tail) = .error (.operandMissing op))

theorem opcode_of_encode (i : Instr) (op : Byte) (bytes : List Byte) (h : encode i = op :: bytes) : i.opcode = op :=
  (List.cons.inj h).1

theorem decodesWithLength_o (op : Byte) (i : Instr) (tail : List Byte) (hd : decodeOpcode op = .o i) :
    DecodesWithLength op tail 1 :=
  ⟨fun _ => ⟨i, decode_o op i tail hd, opcode_of_encode i op _ (encode_of_decodeOpcode_o op i hd).2⟩,
    fun hlen => absurd hlen (by omega)⟩

theorem decodesWithLength_oe (op : Byte) (mk : Byte → Instr) (tail : List Byte) (hd : decodeOpcode op = .oe mk) :
    DecodesWithLength op tail 2 := by
  cases tail with
  | nil => exact ⟨fun hlen => absurd hlen (by decide), fun _ => by simp only [decode, hd]⟩
  | cons e8 rest =>
    exact ⟨fun _ => ⟨mk e8, decode_oe op e8 mk rest hd,
      opcode_of_encode _ op _ (encode_of_decodeOpcode_oe op e8 mk hd).2⟩, fun hlen => absurd hlen (by simp)⟩

theorem decodesWithLength_oa (op : Byte) (mk : Word → Instr) (tail : List Byte) (hd : decodeOpcode op = .oa mk) :
    DecodesWithLength op tail 3 := by
  match tail with
  | [] => exact ⟨fun hlen => absurd hlen (by decide), fun _ => by simp only [decode, hd]⟩
  | [_] => exact ⟨fun hlen => absurd hlen (by simp), fun _ => by simp only [decode, hd]⟩
  | lo :: hi :: rest =>
    exact ⟨fun _ => ⟨mk (hi ++ lo), decode_oa op lo hi mk rest hd,
      opcode_of_encode _ op _ (encode_of_decodeOpcode_oa op lo hi mk hd).2⟩, fun hlen => absurd hlen (by simp)⟩

/-- The four bytes of R98 are not of format O. -/
theorem not_operand_opcode_of_o (op : Byte) (i : Instr) (hd : decodeOpcode op = .o i) :
    op ≠ 0xC3#8 ∧ ¬ (op = 0x18#8 ∨ op = 0x20#8 ∨ op = 0x28#8) := by
  refine ⟨?_, ?_⟩
  · rintro rfl
    cases hd.symm.trans decodeOpcode_jp
  · rintro (rfl | rfl | rfl)
    · cases hd.symm.trans decodeOpcode_jr
    · cases hd.symm.trans decodeOpcode_jrNz
    · cases hd.symm.trans decodeOpcode_jrZ

/-- Settles O19, one case per format of the opcode byte. -/
theorem opcodeAloneTellsTheLength : Obligations.OpcodeAloneTellsTheLength := by
  intro op tail length
  show DecodesWithLength op tail
    (if op = 0xC3#8 then 3 else if op = 0x18#8 ∨ op = 0x20#8 ∨ op = 0x28#8 then 2 else 1)
  rcases decodeOpcode_cases op with ⟨i, hd, -⟩ | ⟨rfl, hd⟩ | ⟨rfl, hd⟩ | ⟨rfl, hd⟩ | ⟨rfl, hd⟩
  · obtain ⟨hjp, hjr⟩ := not_operand_opcode_of_o op i hd
    rw [if_neg hjp, if_neg hjr]
    exact decodesWithLength_o op i tail hd
  · exact decodesWithLength_oe _ _ tail hd
  · exact decodesWithLength_oe _ _ tail hd
  · exact decodesWithLength_oe _ _ tail hd
  · exact decodesWithLength_oa _ _ tail hd

/-! ## The bytes with no handler (R97) -/

theorem decode_unimplemented_iff (op : Byte) (tail : List Byte) :
    decode (op :: tail) = .ok (.unimplemented op, tail) ↔ unimplementedByte op = true :=
  ⟨fun h => (encodeInvertsDecode _ _ _ h).1, fun h => decode_o op _ tail (decodeOpcode_unimplemented op h)⟩

/-- Settles O20: the default row is what decodes from the bytes of `unimplementedByte`, whose ranges are those of R97. -/
theorem exactlyTheListedBytesAreUnimplemented : Obligations.ExactlyTheListedBytesAreUnimplemented := by
  intro op tail
  rw [decode_unimplemented_iff]
  simp only [unimplementedByte, Bool.or_eq_true, Bool.and_eq_true, decide_eq_true_eq, or_assoc]

/-- Settles O21, by the laws of the decoder's groups. -/
theorem writtenOutBytesDecode : Obligations.WrittenOutBytesDecode :=
  ⟨decode_o _ _ _ (decodeOpcode_ld .l .e), decode_o _ _ _ (decodeOpcode_ld .mhl .mhl),
    decode_o _ _ _ (decodeOpcode_inc .mhl), decode_o _ _ _ (decodeOpcode_add .mhl),
    decode_o _ _ _ (decodeOpcode_sub .c), decode_o _ _ _ (decodeOpcode_xor .l),
    decode_oe _ _ _ _ decodeOpcode_jrNz, decode_oa _ _ _ _ _ decodeOpcode_jp,
    decode_o _ _ _ decodeOpcode_stop, decode_o _ _ _ (decodeOpcode_unimplemented 0xCB#8 rfl)⟩

/-- Settles O22: the table of R93, and the pair HL as a number. -/
theorem registerFieldSelects : Obligations.RegisterFieldSelects :=
  ⟨rfl, rfl, rfl, rfl, rfl, rfl, rfl, rfl, rfl, fun s => getPair_toNat s .hl⟩

/-! ## The step by its fetched instruction (R102, R106) -/

theorem step_of_fetchInstr (s t : State) (i : Instr) (hrun : s.runState = .running) (hf : fetchInstr s = .ok (i, t)) :
    step s = exec i t := by
  rw [step_running s hrun, hf]

/-- The step and its cost, from what the fetch gives. -/
theorem step_and_cost_of_fetchInstr (s t : State) (i : Instr) (hrun : s.runState = .running)
    (hf : fetchInstr s = .ok (i, t)) :
    step s = exec i t ∧ ∀ u, exec i t = .next u → stepCosted s = .next (u, cycleCost i t) :=
  ⟨step_of_fetchInstr s t i hrun hf, fun u hu => stepCosted_running s t u i hrun hf hu⟩

theorem stepCosted_halted (s : State) (h : s.runState = .halted) : stepCosted s = .next (s, 4) := by
  simp only [stepCosted, h, interruptCheck, haltedCost]

theorem cycleCost_of_exec_next (i : Instr) (s t : State) (h : exec i s = .next t) :
    cycleCost i s = 4 ∨ cycleCost i s = 8 ∨ cycleCost i s = 12 ∨ cycleCost i s = 16 := by
  rcases cycleCost_cases i s with ⟨op, rfl⟩ | hcost
  · cases h
  · exact hcost

/-- Settles O45: the cost is that of HALTED, or of an instruction that completes. -/
theorem stepCostsAreFourToSixteen : Obligations.StepCostsAreFourToSixteen := by
  intro s t n h
  have hstep : step s = .next t := step_of_stepCosted s t n h
  refine ⟨?_, hstep⟩
  rcases step_next_cases s t hstep with ⟨hhalt, -⟩ | ⟨hrun, i, _, pc, -, -, -, hf, hexec⟩
  · rw [stepCosted_halted s hhalt] at h
    cases h
    exact .inl rfl
  · rw [stepCosted_running s _ t i hrun hf hexec] at h
    cases h
    exact cycleCost_of_exec_next i _ t hexec

/-! ## The address read of `JP` (R64, R108, R140) -/

/-- The fetch of `JP` where both address bytes can be read and lie in one row of the region table. -/
theorem fetchInstr_jp_ok (s : State) (lo hi : Byte) (hop : readByte s s.pc = .ok 0xC3#8)
    (hlo : readByte s (s.pc + 1#16) = .ok lo) (hhi : readByte s (s.pc + 2#16) = .ok hi)
    (hk : (region s (s.pc + 1#16)).kind = (region s (s.pc + 2#16)).kind) :
    fetchInstr s = .ok (.jpA16 (hi ++ lo), setPc s (s.pc + 1#16)) := by
  rw [← word_add_two] at hhi hk
  have hend : (s.pc + 1#16).toNat ≠ 0xFFFF := by
    have := readByte_ok_range s _ lo hlo
    omega
  rw [fetchInstr_jp s hop, readWord_ok s _ lo hi hlo hhi hend hk]

/-- Settles O41, one clause per format. -/
theorem stepRunsTheDecodedInstruction : Obligations.StepRunsTheDecodedInstruction := by
  intro s i hrun hwf
  rcases format_cases i hwf with ⟨henc, hd⟩ | ⟨mk, d, rfl, henc, hd⟩ | ⟨l, h, rfl, henc⟩
  · rw [henc]
    refine ⟨fun _ hop => ?_, fun e8 he => by simp at he, fun lo hi he => by simp at he⟩
    exact step_and_cost_of_fetchInstr s _ i hrun (fetchInstr_o s _ i hop hd)
  · rw [henc]
    refine ⟨fun he => by simp at he, fun e8 he hop hread => ?_, fun lo hi he => by simp at he⟩
    obtain rfl : d = e8 := by simpa using he
    exact step_and_cost_of_fetchInstr s _ _ hrun (fetchInstr_oe s _ d mk hop hd hread)
  · rw [henc]
    refine ⟨fun he => by simp at he, fun e8 he => by simp at he, fun lo hi he hop hlo hhi hk => ?_⟩
    obtain ⟨rfl, rfl⟩ : l = lo ∧ h = hi := by simpa using he
    exact step_and_cost_of_fetchInstr s _ _ hrun (fetchInstr_jp_ok s l h hop hlo hhi hk)

/-- The row an address stands in does not depend on the selectors (R53). -/
theorem region_kind (s : State) (a : Word) : (region s a).kind = (mapAddress a 1 1 false).kind :=
  map_kind a _ _ _ _ _ _

/-- Two readable addresses that follow each other lie in one row, but for the last ones of 0000–3FFF and C000–CFFF. -/
theorem region_kind_succ (s : State) (a : Word) (lo hi : Byte) (hlo : readByte s a = .ok lo)
    (hhi : readByte s (a + 1#16) = .ok hi) (hrom : a.toNat ≠ 0x3FFF) (hwork : a.toNat ≠ 0xCFFF) :
    (region s a).kind = (region s (a + 1#16)).kind := by
  have ha := readByte_ok_range s a lo hlo
  have hb := readByte_ok_range s (a + 1#16) hi hhi
  have hsucc : (a + 1#16).toNat = a.toNat + 1 := by bv_omega
  rcases (by omega : a.toNat + 1 ≤ 0x3FFF ∨ (0x4000 ≤ a.toNat ∧ a.toNat + 1 ≤ 0x7FFF) ∨
    (0xC000 ≤ a.toNat ∧ a.toNat + 1 ≤ 0xCFFF) ∨ (0xD000 ≤ a.toNat ∧ a.toNat + 1 ≤ 0xDFFF)) with
    h | ⟨h, h'⟩ | ⟨h, h'⟩ | ⟨h, h'⟩
  · simp (disch := omega) only [region, map_romFixed, Region.kind]
  · simp (disch := omega) only [region, map_romSwitch, Region.kind]
  · simp (disch := omega) only [region, map_workFixed, Region.kind]
  · simp (disch := omega) only [region, map_workSwitch, Region.kind]

/-- A word whose bytes lie in two rows faults before either is read (R64). -/
theorem readWord_crossRegion (s : State) (a : Word) (h : (region s a).kind ≠ (region s (a + 1#16)).kind) :
    readWord s a = .error (.crossRegionRead a 2) := by
  rw [readWord, readSized, if_pos (.inr h)]

/-- Behind these four addresses the two address bytes stand in two rows. -/
theorem region_kind_straddle (s : State) (pc : Word)
    (h : pc = 0x3FFE#16 ∨ pc = 0x7FFE#16 ∨ pc = 0xCFFE#16 ∨ pc = 0xDFFE#16) :
    (region s (pc + 1#16)).kind ≠ (region s (pc + 1#16 + 1#16)).kind := by
  rw [region_kind, region_kind]
  rcases h with rfl | rfl | rfl | rfl <;> decide

/-- Settles O38: away from the four addresses the bytes share a row, and at them the fetch faults. -/
theorem jpStepReadsOneRegion : Obligations.JpStepReadsOneRegion := by
  intro s hrun hop
  constructor
  · intro lo hi hlo hhi hrom _ hwork _
    have hk : (region s (s.pc + 1#16)).kind = (region s (s.pc + 2#16)).kind := by
      rw [← word_add_two] at hhi ⊢
      exact region_kind_succ s _ lo hi hlo hhi (by bv_omega) (by bv_omega)
    rw [step_of_fetchInstr s _ _ hrun (fetchInstr_jp_ok s lo hi hop hlo hhi hk), exec_jpA16]
    rfl
  · intro hpc
    have hword := readWord_crossRegion s (s.pc + 1#16) (region_kind_straddle s s.pc hpc)
    rw [step_running s hrun, fetchInstr_jp s hop, hword]

end Sys2Proof.Proofs.Encoding
end

section
/-! The move block (40_load_move.md R110 to R114): the opcode byte, the outcome and the cost of its 64 forms, each for any
two operand codes, and the four kinds of form from them. -/
namespace Sys2Proof.Proofs.LoadMove
open Sys2Proof.Machine

/-! ## Any form of the block (R114) -/

/-- A form with the memory operand on either side costs 8, every other form 4 (R96). -/
theorem cycleCost_ld (y z : Reg8) (s : State) :
    cycleCost (Instr.ld y z) s = if y = .mhl ∨ z = .mhl then 8 else 4 := by
  cases y <;> cases z <;> rfl

theorem operandSlot_ne_mhl (k : Reg8) (r : Slot) (h : operandSlot k = some r) : k ≠ .mhl := by
  rintro rfl
  cases h

/-- The block's two fields are the two register codes (R92). -/
theorem opcode_ld_ofCode (y z : BitVec 3) :
    (Instr.ld (Reg8.ofCode y) (Reg8.ofCode z)).opcode = 0x40#8 ||| (y.setWidth 8 <<< 3) ||| z.setWidth 8 := by
  rw [Instr.opcode_ld, Reg8.code_ofCode, Reg8.code_ofCode]

section Outcomes
variable (y z : Reg8) (s : State)

theorem exec_ld_next (t : State) (v : Byte) (hv : readOp z s = .ok v) (hw : writeOp y v s = .ok t) :
    exec (Instr.ld y z) s = .next t := by
  rw [exec_ld, move_next]
  exact ⟨v, hv, hw⟩

/-- The read comes first: its fault is the instruction's (R79). -/
theorem exec_ld_read_fault (r : Fault) (hr : readOp z s = .error r) : exec (Instr.ld y z) s = .fault r := by
  rw [exec_ld, move_fault]
  exact .inl hr

theorem exec_ld_write_fault (r : Fault) (v : Byte) (hv : readOp z s = .ok v) (hw : writeOp y v s = .error r) :
    exec (Instr.ld y z) s = .fault r := by
  rw [exec_ld, move_fault]
  exact .inr ⟨v, hv, hw⟩

end Outcomes

/-! ## The four kinds of form (R110 to R113) -/

/-- Settles O23: neither the read nor the write of a slot can fault. -/
theorem ldSlotFromSlot : Obligations.LdSlotFromSlot := by
  intro y z dst src hdst hsrc
  have hy := operandSlot_ne_mhl _ _ hdst
  have hz := operandSlot_ne_mhl _ _ hsrc
  refine ⟨opcode_ld_ofCode y z, fun s => ⟨?_, by rw [cycleCost_ld, if_neg (not_or_intro hy hz)]⟩⟩
  exact exec_ld_next _ _ s _ _ (readOp_slot _ src s hsrc) (writeOp_slot _ dst _ s hdst)

/-- Settles O24: the read decides, since the write of a slot cannot fault. -/
theorem ldSlotFromMemory : Obligations.LdSlotFromMemory := by
  intro y dst hdst
  refine ⟨?_, fun s => ⟨fun v hv => ?_, exec_ld_read_fault _ .mhl s, by rw [cycleCost_ld, if_pos (.inr rfl)]⟩⟩
  · have hfields : 0x40#8 ||| (y.setWidth 8 <<< 3) ||| 6#8 = 0x46#8 ||| (y.setWidth 8 <<< 3) := by
      rw [BitVec.or_assoc, BitVec.or_comm _ 6#8, ← BitVec.or_assoc]
      rfl
    exact (opcode_ld_ofCode y 6#3).trans hfields
  · exact exec_ld_next _ .mhl s _ v hv (writeOp_slot _ dst v s hdst)

/-- Settles O25: the write decides, and where Work RAM stands behind HL it succeeds. -/
theorem ldMemoryFromSlot : Obligations.LdMemoryFromSlot := by
  intro z src hsrc
  refine ⟨opcode_ld_ofCode 6#3 z, fun s hl hhl hwf => ⟨fun hrange => ?_, fun r hr => ?_,
    by rw [cycleCost_ld, if_pos (.inl rfl)]⟩⟩
  · have haddr : (getPair s .hl).toNat = hl := (getPair_toNat s .hl).trans hhl.symm
    rw [← haddr] at hrange
    obtain ⟨t, ht⟩ := (Accessors.writeByte_succeeds_iff s _ (getSlot s src)).2 hrange
    exact ⟨t, exec_ld_next .mhl _ s t _ (readOp_slot _ src s hsrc) ht, writeByte_ok_frame s t _ _ ht,
      readByte_writeByte_same s t _ _ hwf ht⟩
  · exact exec_ld_write_fault .mhl _ s r _ (readOp_slot _ src s hsrc) hr

/-- Settles O26: in Work RAM the write stores the byte that is there, and in the cartridge it faults. -/
theorem ldMemoryFromMemory : Obligations.LdMemoryFromMemory := by
  refine ⟨rfl, fun s hwf => ⟨fun v hv hwork => ?_, fun v hv hrom => ?_, exec_ld_read_fault .mhl .mhl s, rfl⟩⟩
  · exact exec_ld_next .mhl .mhl s s v hv (writeByte_readByte s _ v hwf hv hwork)
  · exact exec_ld_write_fault .mhl .mhl s _ v hv ((writeByte_readOnly_iff s _ _ v).2 ⟨hrom, rfl⟩)

end Sys2Proof.Proofs.LoadMove
end

section
/-! The increment, ADD, SUB and XOR groups (41_alu.md R120 to R136): the outcome of each group for any operand code, given
what the operand reads as, with result and flag byte as numbers; and the slot and memory forms from it. -/
namespace Sys2Proof.Proofs.Arithmetic
open Sys2Proof.Machine

/-! ## The cost of the groups (R96) -/

theorem cycleCost_inc (k : Reg8) (s : State) : cycleCost (Instr.inc k) s = if k = .mhl then 12 else 4 := by
  cases k <;> rfl

theorem cycleCost_accumulator (i : Instr) (k : Reg8) (s : State) (hi : i = .add k ∨ i = .sub k ∨ i = .xor k) :
    cycleCost i s = if k = .mhl then 8 else 4 := by
  rcases hi with rfl | rfl | rfl <;> cases k <;> rfl

theorem cycleCost_accumulator_slot (i : Instr) (k : Reg8) (s : State) (r : Slot)
    (hi : i = .add k ∨ i = .sub k ∨ i = .xor k) (hk : operandSlot k = some r) : cycleCost i s = 4 := by
  rw [cycleCost_accumulator i k s hi, if_neg (LoadMove.operandSlot_ne_mhl k r hk)]

/-! ## The groups that write A and F (R129 to R134), for any operand -/

/-- Once the operand has been read the handler completes, and A and F are all it writes (R136). -/
theorem accumulate_of_readOp (f : Byte → Byte → AluResult) (k : Reg8) (s : State) (v : Byte) (hv : readOp k s = .ok v) :
    accumulate f k s =
      .next { s with slots := { s.slots with
        a := (f s.slots.a v).result
        f := packFlags (f s.slots.a v).flags } } :=
  (accumulate_next f k s _).2 ⟨v, hv, rfl⟩

theorem exec_add_of_readOp (k : Reg8) (s : State) (v : Byte) (hv : readOp k s = .ok v) :
    exec (Instr.add k) s =
      .next { s with slots := { s.slots with
        a := BitVec.ofNat 8 ((s.slots.a.toNat + v.toNat) % 256)
        f := BitVec.ofNat 8 ((if (s.slots.a.toNat + v.toNat) % 256 = 0 then 128 else 0) +
          (if 15 < s.slots.a.toNat % 16 + v.toNat % 16 then 32 else 0) +
          (if 255 < s.slots.a.toNat + v.toNat then 16 else 0)) } } := by
  rw [exec_add, accumulate_of_readOp add8 k s v hv, add8_result, add8_flags]

theorem exec_sub_of_readOp (k : Reg8) (s : State) (v : Byte) (hv : readOp k s = .ok v) :
    exec (Instr.sub k) s =
      .next { s with slots := { s.slots with
        a := BitVec.ofNat 8 ((s.slots.a.toNat + 256 - v.toNat) % 256)
        f := BitVec.ofNat 8 ((if s.slots.a.toNat = v.toNat then 128 else 0) + 64 +
          (if s.slots.a.toNat % 16 < v.toNat % 16 then 32 else 0) +
          (if s.slots.a.toNat < v.toNat then 16 else 0)) } } := by
  rw [exec_sub, accumulate_of_readOp sub8 k s v hv, sub8_result, sub8_flags]

theorem exec_xor_of_readOp (k : Reg8) (s : State) (v : Byte) (hv : readOp k s = .ok v) :
    exec (Instr.xor k) s =
      .next { s with slots := { s.slots with
        a := s.slots.a ^^^ v
        f := if s.slots.a = v then 0x80#8 else 0x00#8 } } := by
  rw [exec_xor, accumulate_of_readOp xor8 k s v hv, xor8_flags]
  rfl

/-- A fault of the operand's read is the instruction's. -/
theorem exec_accumulator_fault (i : Instr) (k : Reg8) (s : State) (r : Fault)
    (hi : i = .add k ∨ i = .sub k ∨ i = .xor k) (hr : readOp k s = .error r) : exec i s = .fault r := by
  rcases hi with rfl | rfl | rfl
  · rw [exec_add, accumulate_fault, hr]
  · rw [exec_sub, accumulate_fault, hr]
  · rw [exec_xor, accumulate_fault, hr]

/-! ## ADD (R129, R130) -/

/-- Settles O29: the read of a slot cannot fault. -/
theorem addSlotToA : Obligations.AddSlotToA := by
  intro z src hz
  refine ⟨by rw [Instr.opcode_add, Reg8.code_ofCode], ?_⟩
  rintro s _ _ rfl rfl
  exact ⟨exec_add_of_readOp _ s _ (readOp_slot _ src s hz), cycleCost_accumulator_slot _ _ s src (.inl rfl) hz⟩

/-- Settles O30: the read of the operand decides. -/
theorem addMemoryToA : Obligations.AddMemoryToA := by
  refine ⟨rfl, fun s => ⟨?_, fun r hr => exec_accumulator_fault _ .mhl s r (.inl rfl) hr, rfl⟩⟩
  rintro _ _ byte hread rfl rfl
  exact exec_add_of_readOp .mhl s byte hread

/-! ## SUB (R131, R132) -/

/-- Settles O31: the read of a slot cannot fault. -/
theorem subSlotFromA : Obligations.SubSlotFromA := by
  intro z src hz
  refine ⟨by rw [Instr.opcode_sub, Reg8.code_ofCode], ?_⟩
  rintro s _ _ rfl rfl
  exact ⟨exec_sub_of_readOp _ s _ (readOp_slot _ src s hz), cycleCost_accumulator_slot _ _ s src (.inr (.inl rfl)) hz⟩

/-- Settles O32: the read of the operand decides. -/
theorem subMemoryFromA : Obligations.SubMemoryFromA := by
  refine ⟨rfl, fun s => ⟨?_, fun r hr => exec_accumulator_fault _ .mhl s r (.inr (.inl rfl)) hr, rfl⟩⟩
  rintro _ _ byte hread rfl rfl
  exact exec_sub_of_readOp .mhl s byte hread

/-! ## XOR (R133, R134) -/

/-- Settles O33: the read of a slot cannot fault. -/
theorem xorSlotIntoA : Obligations.XorSlotIntoA := by
  intro z src hz
  refine ⟨by rw [Instr.opcode_xor, Reg8.code_ofCode], fun s => ⟨?_, ?_⟩⟩
  · exact exec_xor_of_readOp _ s _ (readOp_slot _ src s hz)
  · exact cycleCost_accumulator_slot _ _ s src (.inr (.inr rfl)) hz

/-- Settles O34: the read of the operand decides. -/
theorem xorMemoryIntoA : Obligations.XorMemoryIntoA :=
  ⟨rfl, fun s => ⟨exec_xor_of_readOp .mhl s, fun r hr => exec_accumulator_fault _ .mhl s r (.inr (.inr rfl)) hr, rfl⟩⟩

/-! ## INC (R127, R128) -/

/-- Both accesses succeeded: the incremented byte is where the write put it, and F is written after it. -/
theorem exec_inc_of_accesses (k : Reg8) (s u : State) (v : Byte) (hv : readOp k s = .ok v)
    (hw : writeOp k (BitVec.ofNat 8 ((v.toNat + 1) % 256)) s = .ok u) :
    exec (Instr.inc k) s =
      .next (setSlot u .f (BitVec.ofNat 8 ((if v.toNat = 255 then 128 else 0) +
        (if v.toNat % 16 = 15 then 32 else 0) + (if s.slots.f.getLsbD 4 then 16 else 0)))) := by
  rw [exec_inc, increment_next]
  exact ⟨v, u, hv, by rw [inc8_result, hw], by rw [setFlags, inc8_flags]; rfl⟩

/-- Settles O27: neither the read nor the write of a slot can fault. -/
theorem incSlot : Obligations.IncSlot := by
  intro y r hy
  refine ⟨by rw [Instr.opcode_inc, Reg8.code_ofCode], fun s => ⟨?_, ?_⟩⟩
  · exact exec_inc_of_accesses _ s _ _ (readOp_slot _ r s hy) (writeOp_slot _ r _ s hy)
  · rw [cycleCost_inc, if_neg (LoadMove.operandSlot_ne_mhl _ r hy)]

/-- Settles O28: where Work RAM stands behind HL it is read and written at one offset, so both accesses succeed; elsewhere
the first of them that faults decides. -/
theorem incMemory : Obligations.IncMemory := by
  refine ⟨rfl, fun s hl hhl hwf => ⟨fun hrange => ?_, fun r hr => ?_, fun v r hv hw => ?_, rfl⟩⟩
  · have haddr : (getPair s .hl).toNat = hl := (getPair_toNat s .hl).trans hhl.symm
    rw [← haddr] at hrange
    obtain ⟨o, -, hread, hwrite⟩ := workRam_accesses s _ hrange
    refine ⟨_, _, hread, exec_inc_of_accesses .mhl s _ _ hread (hwrite _), ?_, rfl⟩
    rw [readByte_setSlot, readByte_writeByte_same s _ _ _ hwf (hwrite _)]
  · exact (increment_fault .mhl s r).2 (.inl hr)
  · rw [← inc8_result v (carryFlag s)] at hw
    exact (increment_fault .mhl s r).2 (.inr ⟨v, hv, hw⟩)

end Sys2Proof.Proofs.Arithmetic
end

section
/-! Control transfer (42_control_transfer.md R140 to R145): the address bytes of `JP`, the outcome of a relative jump by its
condition, and the target seen from the opcode's address. -/
namespace Sys2Proof.Proofs.ControlTransfer
open Sys2Proof.Machine

/-! ## JP (R140) -/

/-- The address operand as its low and high byte, the low byte first (R94). -/
theorem encode_jpA16 (a16 : Word) :
    encode (.jpA16 a16) = [0xC3#8, BitVec.ofNat 8 (a16.toNat % 256), BitVec.ofNat 8 (a16.toNat / 256)] := by
  have hlow : a16.extractLsb' 0 8 = BitVec.ofNat 8 (a16.toNat % 256) := by
    apply BitVec.eq_of_toNat_eq
    simp
  have hhigh : a16.extractLsb' 8 8 = BitVec.ofNat 8 (a16.toNat / 256) := by
    apply BitVec.eq_of_toNat_eq
    simp [Nat.shiftRight_eq_div_pow]
  rw [← hlow, ← hhigh]
  rfl

/-- Settles O35: `JP` is a write of `pc`. -/
theorem jpSetsPc : Obligations.JpSetsPc :=
  fun a16 => ⟨encode_jpA16 a16, fun s => ⟨exec_jpA16 a16 s, rfl⟩⟩

/-! ## A conditional relative jump by its condition (R142, R143) -/

theorem zeroFlag_eq (s : State) : zeroFlag s = s.slots.f.getLsbD 7 := rfl

section Condition
variable (e8 : Byte) (s : State)

theorem jrNz_taken (hz : s.slots.f.getLsbD 7 = false) :
    exec (.jrNzE8 e8) s = .next (setPc s (relativeTarget s.pc e8)) ∧ cycleCost (.jrNzE8 e8) s = 12 := by
  rw [exec_jrNzE8, cycleCost, zeroFlag_eq, hz]
  exact ⟨rfl, rfl⟩

theorem jrNz_not_taken (hz : s.slots.f.getLsbD 7 = true) :
    exec (.jrNzE8 e8) s = .next s ∧ cycleCost (.jrNzE8 e8) s = 8 := by
  rw [exec_jrNzE8, cycleCost, zeroFlag_eq, hz]
  exact ⟨rfl, rfl⟩

theorem jrZ_taken (hz : s.slots.f.getLsbD 7 = true) :
    exec (.jrZE8 e8) s = .next (setPc s (relativeTarget s.pc e8)) ∧ cycleCost (.jrZE8 e8) s = 12 := by
  rw [exec_jrZE8, cycleCost, zeroFlag_eq, hz]
  exact ⟨rfl, rfl⟩

theorem jrZ_not_taken (hz : s.slots.f.getLsbD 7 = false) :
    exec (.jrZE8 e8) s = .next s ∧ cycleCost (.jrZE8 e8) s = 8 := by
  rw [exec_jrZE8, cycleCost, zeroFlag_eq, hz]
  exact ⟨rfl, rfl⟩

end Condition

/-- Settles O36: the target is `relativeTarget`, and the zero flag decides which of the two conditional jumps is taken. -/
theorem jrAddsTheDisplacement : Obligations.JrAddsTheDisplacement := by
  refine fun e8 => ⟨rfl, rfl, rfl, fun s =>
    ⟨relativeTarget s.pc e8, relativeTarget_toInt s.pc e8, exec_jrE8 e8 s, rfl, fun hz => ?_, fun hz => ?_⟩⟩
  · obtain ⟨hnz, hnzCost⟩ := jrNz_taken e8 s hz
    exact ⟨hnz, hnzCost, jrZ_not_taken e8 s hz⟩
  · obtain ⟨hnz, hnzCost⟩ := jrNz_not_taken e8 s hz
    exact ⟨hnz, hnzCost, jrZ_taken e8 s hz⟩

/-! ## A relative jump as a whole step (R144) -/

/-- The displacement counts from two past the opcode's address. -/
theorem relativeTarget_add_two (opaddr : Word) (e8 : Byte) :
    ((relativeTarget (opaddr + 2#16) e8).toNat : Int) = ((opaddr.toNat : Int) + 2 + e8.toInt) % 65536 := by
  have hpc : (opaddr + 2#16).toNat = (opaddr.toNat + 2) % 65536 := BitVec.toNat_add opaddr 2#16
  rw [relativeTarget_toInt, hpc]
  omega

/-- The step of an opcode with a readable displacement runs its instruction from two past the opcode's address. -/
theorem step_oe (s : State) (op e8 : Byte) (mk : Byte → Instr) (hrun : s.runState = .running)
    (hop : readByte s s.pc = .ok op) (hd : decodeOpcode op = .oe mk) (he : readByte s (s.pc + 1#16) = .ok e8) :
    step s = exec (mk e8) (setPc s (s.pc + 2#16)) :=
  Encoding.step_of_fetchInstr s _ _ hrun (fetchInstr_oe s op e8 mk hop hd he)

/-- Settles O37: the flags are those before the fetch, so the condition decides as in the state the step started from. -/
theorem jrTargetFromTheOpcodeAddress : Obligations.JrTargetFromTheOpcodeAddress := by
  intro s op e8 hrun hop he
  refine ⟨fun htaken => ⟨relativeTarget (s.pc + 2#16) e8, ?_, relativeTarget_add_two s.pc e8, e8.le_toInt,
    Int.le_of_lt_add_one e8.toInt_lt⟩, fun hnot => ?_⟩
  · rcases htaken with rfl | ⟨rfl, hz⟩ | ⟨rfl, hz⟩
    · exact (step_oe s _ e8 .jrE8 hrun hop decodeOpcode_jr he).trans (exec_jrE8 e8 _)
    · exact (step_oe s _ e8 .jrNzE8 hrun hop decodeOpcode_jrNz he).trans (jrNz_taken e8 (setPc s (s.pc + 2#16)) hz).1
    · exact (step_oe s _ e8 .jrZE8 hrun hop decodeOpcode_jrZ he).trans (jrZ_taken e8 (setPc s (s.pc + 2#16)) hz).1
  · rcases hnot with ⟨rfl, hz⟩ | ⟨rfl, hz⟩
    · exact (step_oe s _ e8 .jrNzE8 hrun hop decodeOpcode_jrNz he).trans (jrNz_not_taken e8 (setPc s (s.pc + 2#16)) hz).1
    · exact (step_oe s _ e8 .jrZE8 hrun hop decodeOpcode_jrZ he).trans (jrZ_not_taken e8 (setPc s (s.pc + 2#16)) hz).1

end Sys2Proof.Proofs.ControlTransfer
end

section
/-! System control (43_system.md R150, R151): `STOP`, the step in HALTED, and the host calls on an engine that is HALTED or
FAULTED (R166, R194). -/
namespace Sys2Proof.Proofs.System
open Sys2Proof.Machine

/-! ## One host call in HALTED and in FAULTED

Both calls branch on `run_state` alone here, so they compute once it is put in place. -/

/-- The fields that no host call changes in HALTED (R151, R194): `t` is `s` but for `CART` and `pc`. -/
def EqExceptCartAndPc (s t : State) : Prop := t = { s with cart := t.cart, pc := t.pc }

theorem EqExceptCartAndPc.refl (s : State) : EqExceptCartAndPc s s := rfl

theorem EqExceptCartAndPc.trans {s t u : State} (hst : EqExceptCartAndPc s t) (htu : EqExceptCartAndPc t u) :
    EqExceptCartAndPc s u := by
  rw [hst] at htu
  exact htu

theorem EqExceptCartAndPc.runState_eq {s t : State} (h : EqExceptCartAndPc s t) : t.runState = s.runState := by
  rw [h]

theorem transact_halted (call : HostCall) (s : State) (h : s.runState = .halted) :
    EqExceptCartAndPc s (transact call s).1 := by
  obtain ⟨_, _, _, _, _, _, _, _, runState⟩ := s
  obtain rfl : runState = .halted := h
  cases call with
  | loadCartridge bytes => rfl
  | step => rfl

theorem transact_faulted (call : HostCall) (s : State) (h : s.runState = .faulted) : (transact call s).1 = s := by
  obtain ⟨_, _, _, _, _, _, _, _, runState⟩ := s
  obtain rfl : runState = .faulted := h
  cases call with
  | loadCartridge bytes => rfl
  | step => rfl

/-! ## Every sequence of host calls -/

theorem transactAll_halted (calls : List HostCall) (s : State) (h : s.runState = .halted) :
    EqExceptCartAndPc s (transactAll calls s) := by
  induction calls generalizing s with
  | nil => exact .refl s
  | cons call calls ih =>
    have hcall := transact_halted call s h
    exact hcall.trans (ih _ (hcall.runState_eq.trans h))

theorem transactAll_faulted (calls : List HostCall) (s : State) (h : s.runState = .faulted) :
    transactAll calls s = s := by
  induction calls with
  | nil => rfl
  | cons call calls ih =>
    calc transactAll (call :: calls) s
      _ = transactAll calls (transact call s).1 := rfl
      _ = transactAll calls s := congrArg (transactAll calls) (transact_faulted call s h)
      _ = s := ih

/-- Settles O57: in HALTED the calls change `CART` and `pc` at most, and in FAULTED every call is refused. -/
theorem haltedAndFaultedAreAbsorbing : Obligations.HaltedAndFaultedAreAbsorbing := by
  refine ⟨fun calls s h => ?_, fun calls s h => ?_⟩
  · rw [transactAll_halted calls s h]
    exact ⟨h, rfl, rfl, rfl, rfl, rfl, rfl⟩
  · rw [transactAll_faulted calls s h, h]

/-! ## STOP and the step in HALTED -/

/-- Settles O39: `STOP` is a write of `run_state`. -/
theorem stopEntersHalted : Obligations.StopEntersHalted :=
  ⟨rfl, fun s => ⟨exec_stop s, rfl⟩⟩

/-- Settles O43: stage 1 alone is performed (R107). -/
theorem haltedStepReturnsFour : Obligations.HaltedStepReturnsFour :=
  fun s h => ⟨Encoding.stepCosted_halted s h, step_halted s h⟩

end Sys2Proof.Proofs.System
end

section
/-! The exceptions (60_exceptions.md R160 to R168): where each fault comes from, seen from an access, from an instruction,
from the fetch and from a whole step; and what a fault leaves behind (R166). -/
namespace Sys2Proof.Proofs.Exceptions
open Sys2Proof.Machine

/-! ## The regions without a backing store (R60, R61, R162) -/

/-- An access to a region of one of the six kinds answers the kind, wherever in the region it is. -/
theorem accesses_unwired (s : State) (a : Word) (v : Byte)
    (h : (region s a).kind ∈ [RegionKind.videoRam, .externalRam, .oam, .io, .highRam, .interruptEnable]) :
    readByte s a = .error (.unimplementedRegion a (region s a).kind) ∧
    writeByte s a v = .error (.unimplementedRegion a (region s a).kind) := by
  revert h
  rw [readByte, writeByte]
  cases region s a <;> simp [Region.kind]

/-- Settles O10: each range is the row of its kind, and an access branches on the row alone. -/
theorem unwiredRegionsAlwaysFault : Obligations.UnwiredRegionsAlwaysFault := by
  intro s a v kind h
  have hrow : (region s a).kind = kind := by
    rcases h with ⟨h, h', rfl⟩ | ⟨h, h', rfl⟩ | ⟨h, h', rfl⟩ | ⟨h, h', rfl⟩ | ⟨h, h', rfl⟩ | ⟨h, rfl⟩
    · exact congrArg Region.kind (map_videoRam a _ _ _ h h')
    · exact congrArg Region.kind (map_externalRam a _ _ _ h h')
    · exact congrArg Region.kind (map_oam a _ _ _ h h')
    · exact congrArg Region.kind (map_io a _ _ _ h h')
    · exact congrArg Region.kind (map_highRam a _ _ _ h h')
    · exact congrArg Region.kind (map_interruptEnable a _ _ _ h)
  have hkind : kind ∈ [RegionKind.videoRam, .externalRam, .oam, .io, .highRam, .interruptEnable] := by
    rcases h with ⟨-, -, rfl⟩ | ⟨-, -, rfl⟩ | ⟨-, -, rfl⟩ | ⟨-, -, rfl⟩ | ⟨-, -, rfl⟩ | ⟨-, rfl⟩ <;> simp
  obtain rfl := hrow
  obtain ⟨hread, hwrite⟩ := accesses_unwired s a v hkind
  refine ⟨hread, hwrite, ?_⟩
  rintro hrun rfl
  exact Accessors.step_of_opcode_fault s _ hrun hread

/-! ## The faults of an instruction (R105) -/

/-- Only the memory operand can fault. -/
theorem readOp_error (k : Reg8) (s : State) (r : Fault) (h : readOp k s = .error r) :
    readByte s (hlAddress s) = .error r := by
  rcases operandSlot_cases k with ⟨q, hq⟩ | rfl
  · rw [readOp_slot k q s hq] at h
    cases h
  · exact h

theorem writeOp_error (k : Reg8) (v : Byte) (s : State) (r : Fault) (h : writeOp k v s = .error r) :
    k = .mhl ∧ writeByte s (hlAddress s) v = .error r := by
  rcases operandSlot_cases k with ⟨q, hq⟩ | rfl
  · rw [writeOp_slot k q v s hq] at h
    cases h
  · exact ⟨rfl, h⟩

/-- Everything a fault of `exec` can be: the read of the operand `(HL)`, the write of a store, or the default row. -/
theorem exec_fault_cases (i : Instr) (s : State) (r : Fault) (h : exec i s = .fault r) :
    readByte s (hlAddress s) = .error r ∨
    (((∃ z, i = .ld .mhl z) ∨ i = .incMhl) ∧ ∃ v, writeByte s (hlAddress s) v = .error r) ∨
    ∃ op, i = .unimplemented op ∧ r = .unimplementedOpcode op (s.pc - 1#16) := by
  rcases i.shape with ⟨y, z, rfl⟩ | ⟨k, rfl⟩ | ⟨k, rfl⟩ | ⟨k, rfl⟩ | ⟨k, rfl⟩ | ⟨a, rfl⟩ | ⟨e, rfl⟩ | ⟨e, rfl⟩ | ⟨e, rfl⟩ |
    rfl | ⟨op, rfl⟩
  · rw [exec_ld, move_fault] at h
    rcases h with hr | ⟨v, -, hw⟩
    · exact .inl (readOp_error z s r hr)
    · obtain ⟨rfl, hw⟩ := writeOp_error y v s r hw
      exact .inr (.inl ⟨.inl ⟨z, rfl⟩, v, hw⟩)
  · rw [exec_inc, increment_fault] at h
    rcases h with hr | ⟨v, -, hw⟩
    · exact .inl (readOp_error k s r hr)
    · obtain ⟨rfl, hw⟩ := writeOp_error k _ s r hw
      exact .inr (.inl ⟨.inr rfl, _, hw⟩)
  · rw [exec_add, accumulate_fault] at h
    exact .inl (readOp_error k s r h)
  · rw [exec_sub, accumulate_fault] at h
    exact .inl (readOp_error k s r h)
  · rw [exec_xor, accumulate_fault] at h
    exact .inl (readOp_error k s r h)
  · cases h
  · cases h
  · cases h
  · cases h
  · cases h
  · cases h
    exact .inr (.inr ⟨op, rfl, rfl⟩)

/-! ## The faults of the fetch (R79, R104) -/

theorem readSized_error_cases (s : State) (a : Word) (n : Nat) (r : Fault) (h : readSized s a n = .error r) :
    r = .crossRegionRead a n ∨ ∃ b, readByte s b = .error r := by
  unfold readSized at h
  split at h
  · cases h
    exact .inl rfl
  · obtain ⟨i, -, hi, -⟩ := (Accessors.readBytes_error_iff s n a r).1 h
    exact .inr ⟨_, hi⟩

/-- The fetch of a relative jump faults exactly where its displacement cannot be read. -/
theorem fetchInstr_oe_error_iff (s : State) (op : Byte) (mk : Byte → Instr) (r : Fault) (hop : readByte s s.pc = .ok op)
    (hd : decodeOpcode op = .oe mk) : fetchInstr s = .error r ↔ readByte s (s.pc + 1#16) = .error r := by
  cases he : readByte s (s.pc + 1#16) with
  | error q =>
    have hdisplacement : fetchByte (setPc s (s.pc + 1#16)) = .error q :=
      fetchByte_error _ q (by rw [readByte_setPc, setPc_pc, he])
    simp only [fetchInstr, fetchByte_ok s op hop, hd, hdisplacement, Except.error.injEq]
  | ok e8 => simp [fetchInstr_oe s op e8 mk hop hd he]

/-- The fetch of `JP` faults exactly where its address cannot be read. -/
theorem fetchInstr_jp_error_iff (s : State) (r : Fault) (hop : readByte s s.pc = .ok 0xC3#8) :
    fetchInstr s = .error r ↔ readSized s (s.pc + 1#16) 2 = .error r := by
  cases hw : readSized s (s.pc + 1#16) 2 <;> simp [fetchInstr_jp s hop, readWord, hw]

/-- Everything a fault of the fetch can be: that of a read, or the check of the sized read. -/
theorem fetchInstr_error_cases (s : State) (r : Fault) (h : fetchInstr s = .error r) :
    (∃ a n, r = .crossRegionRead a n) ∨ ∃ a, readByte s a = .error r := by
  cases hop : readByte s s.pc with
  | error q =>
    obtain rfl : q = r := by simpa [fetchInstr, fetchByte_error s q hop] using h
    exact .inr ⟨s.pc, hop⟩
  | ok op =>
    rcases decodeOpcode_cases op with ⟨i, hd, -⟩ | ⟨-, hd⟩ | ⟨-, hd⟩ | ⟨-, hd⟩ | ⟨rfl, -⟩
    · rw [fetchInstr_o s op i hop hd] at h
      cases h
    · exact .inr ⟨_, (fetchInstr_oe_error_iff s op _ r hop hd).1 h⟩
    · exact .inr ⟨_, (fetchInstr_oe_error_iff s op _ r hop hd).1 h⟩
    · exact .inr ⟨_, (fetchInstr_oe_error_iff s op _ r hop hd).1 h⟩
    · exact (readSized_error_cases s _ 2 r ((fetchInstr_jp_error_iff s r hop).1 h)).imp_left (⟨_, _, ·⟩)

/-! ## Writes to ROM (R163) -/

theorem fetchInstr_not_readOnly (s : State) (a : Word) : fetchInstr s ≠ .error (.readOnlyViolation a) := by
  intro h
  rcases fetchInstr_error_cases s _ h with ⟨b, n, hr⟩ | ⟨b, hb⟩
  · cases hr
  · exact readByte_not_readOnly s b a hb

/-- An instruction that writes to ROM is a store, and the address is HL. -/
theorem exec_readOnly (i : Instr) (s : State) (a : Word) (h : exec i s = .fault (.readOnlyViolation a)) :
    ((∃ z, i = .ld .mhl z) ∨ i = .incMhl) ∧ a = hlAddress s ∧ a.toNat ≤ 0x7FFF := by
  rcases exec_fault_cases i s _ h with hr | ⟨hi, v, hw⟩ | ⟨op, -, hr⟩
  · exact absurd hr (readByte_not_readOnly s _ a)
  · obtain ⟨hrange, rfl⟩ := (writeByte_readOnly_iff s _ a v).1 hw
    exact ⟨hi, rfl, hrange⟩
  · cases hr

theorem opcode_of_store (i : Instr) (hi : (∃ z, i = .ld .mhl z) ∨ i = .incMhl) :
    i.opcode = 0x34#8 ∨ (0x70 ≤ i.opcode.toNat ∧ i.opcode.toNat ≤ 0x77) := by
  rcases hi with ⟨z, rfl⟩ | rfl
  · exact .inr (Writers.opcode_ld_range .mhl z)
  · exact .inl rfl

/-- Settles O11: neither the fetch nor any read raises the fault, so it is the write of a store. -/
theorem romWriteFaultsAndOnlyStoresRaiseIt : Obligations.RomWriteFaultsAndOnlyStoresRaiseIt := by
  refine ⟨fun s a v h => (writeByte_readOnly_iff s a a v).2 ⟨h, rfl⟩, fun s a h => ?_⟩
  obtain ⟨-, hfetch | ⟨i, _, pc, hop, rfl, -, hexec⟩⟩ := step_fault_cases s _ h
  · exact absurd hfetch (fetchInstr_not_readOnly s a)
  · obtain ⟨hi, rfl, hrange⟩ := exec_readOnly i (setPc s pc) a hexec
    exact ⟨getPair_toNat (setPc s pc) .hl, hrange, i.opcode, hop, opcode_of_store i hi⟩

/-! ## Opcode bytes with no handler (R97, R164) -/

/-- Settles O40: the fetch moves `pc` one past the opcode, and the report names the address before `pc`. -/
theorem unimplementedOpcodeFaults : Obligations.UnimplementedOpcodeFaults := by
  refine ⟨exec_unimplemented, fun op s hrun hop hun => ?_⟩
  have hfetch := fetchInstr_o s op _ hop (decodeOpcode_unimplemented op hun)
  rw [Encoding.step_of_fetchInstr s _ _ hrun hfetch, exec_unimplemented, setPc_pc, BitVec.add_sub_cancel]

/-! ## The first fault of a step (R168) -/

theorem step_of_fetch_fault (s : State) (r : Fault) (hrun : s.runState = .running) (h : fetchInstr s = .error r) :
    step s = .fault r := by
  rw [step_running s hrun, h]

/-- Settles O42, one fetch law per clause. -/
theorem firstFaultEndsTheStep : Obligations.FirstFaultEndsTheStep := by
  refine fun s hrun => ⟨fun r => Accessors.step_of_opcode_fault s r hrun, fun op r hop hjr he => ?_,
    fun r hop he => step_of_fetch_fault s r hrun ((fetchInstr_jp_error_iff s r hop).2 he), fun i r hwf henc hop hexec => ?_⟩
  · apply step_of_fetch_fault s r hrun
    rcases hjr with rfl | rfl | rfl
    · exact (fetchInstr_oe_error_iff s _ _ r hop decodeOpcode_jr).2 he
    · exact (fetchInstr_oe_error_iff s _ _ r hop decodeOpcode_jrNz).2 he
    · exact (fetchInstr_oe_error_iff s _ _ r hop decodeOpcode_jrZ).2 he
  · have hd := decodeOpcode_opcode i hwf (List.cons.inj henc).2
    exact (Encoding.step_of_fetchInstr s _ i hrun (fetchInstr_o s _ i hop hd)).trans hexec

/-! ## What a fault report leaves behind (R166, R198) -/

/-- A load neither faults nor returns a cost. -/
theorem transact_loadCartridge_report (bytes : List Byte) (s : State) :
    (transact (.loadCartridge bytes) s).2 = .loaded ∨
    (transact (.loadCartridge bytes) s).2 = .refused .loadInFaulted := by
  rw [transact, loadCartridge]
  cases s.runState with
  | running => exact .inl rfl
  | halted => exact .inl rfl
  | faulted => exact .inr rfl

theorem step_next_not_faulted (s t : State) (h : step s = .next t) : t.runState ≠ .faulted := by
  rcases step_next_cases s t h with ⟨hhalt, rfl⟩ | ⟨hrun, i, _, pc, -, -, -, -, hexec⟩
  · simp [hhalt]
  · rcases exec_next_runState i _ t hexec with ⟨-, ht⟩ | ⟨-, ht⟩
    · simp [ht]
    · simp [ht, hrun]

/-- Settles O58: only `step` reports a fault or a cost, and a completed step does not end in FAULTED. -/
theorem faultReportEndsTheRun : Obligations.FaultReportEndsTheRun := by
  intro call s
  cases call with
  | loadCartridge bytes =>
    rcases transact_loadCartridge_report bytes s with h | h <;> simp [h]
  | step =>
    cases h : stepCosted s with
    | next p =>
      obtain ⟨t, n⟩ := p
      simpa [transact, h] using step_next_not_faulted s t (step_of_stepCosted s t n h)
    | fault r => simp [transact, h]
    | refused r => simp [transact, h]

end Sys2Proof.Proofs.Exceptions
end

section
/-! The host interface (70_reset_and_hazards.md R192 to R195): what `load_cartridge` does in each engine state, the launch
state with its first fetch, and the step of a machine that no cartridge was loaded into. -/
namespace Sys2Proof.Proofs.Reset
open Sys2Proof.Machine

/-! ## `load_cartridge` in each engine state (R193, R194) -/

/-- The success that `Invariant.loadCartridge_next` inverts. -/
theorem loadCartridge_callable (bytes : List Byte) (s : State) (h : s.runState = .running ∨ s.runState = .halted) :
    loadCartridge bytes s = .next { s with cart := bytes, pc := Config.entryPoint } := by
  rcases h with h | h <;> rw [loadCartridge, h]

theorem loadCartridge_faulted (bytes : List Byte) (s : State) (h : s.runState = .faulted) :
    loadCartridge bytes s = .refused .loadInFaulted := by
  rw [loadCartridge, h]

/-- Settles O54, one law per clause. -/
theorem loadCartridgeSetsCartAndPc : Obligations.LoadCartridgeSetsCartAndPc :=
  fun bytes s => ⟨loadCartridge_callable bytes s, loadCartridge_faulted bytes s⟩

/-! ## The launch state (R195) -/

/-- The state after `construct` and `load_cartridge`. -/
def launchState (m : Memory) (bytes : List Byte) : State :=
  { State.construct m with cart := bytes, pc := Config.entryPoint }

theorem loadCartridge_construct (m : Memory) (bytes : List Byte) :
    loadCartridge bytes (State.construct m) = .next (launchState m bytes) :=
  loadCartridge_callable bytes (State.construct m) (.inl rfl)

/-- The entry point lies in the fixed ROM bank, which maps it to the offset of the same number (R54). -/
theorem fetchByte_launchState (m : Memory) (bytes : List Byte) (op : Byte) (h : bytes[0x0100]? = some op) :
    fetchByte (launchState m bytes) = .ok (op, { launchState m bytes with pc := 0x0101#16 }) := by
  have hread : readByte (launchState m bytes) Config.entryPoint = .ok op :=
    (Accessors.readByte_romFixed _ _ (by decide)).trans (Accessors.readCart_ok _ _ _ op h)
  exact fetchByte_ok _ op hread

/-- Settles O55: the registers are those of `construct`, and the first fetch reads at the entry point. -/
theorem launchStateFetchesAtEntry : Obligations.LaunchStateFetchesAtEntry :=
  fun m bytes => ⟨launchState m bytes, loadCartridge_construct m bytes, Registers.getSlot_construct m,
    rfl, rfl, rfl, rfl, rfl, rfl, rfl, rfl, fetchByte_launchState m bytes⟩

/-! ## A step before a cartridge is loaded (R192) -/

theorem step_construct (m : Memory) : step (State.construct m) = .fault (.backingOutOfRange 0x0000#16 0) := by
  have hread : readByte (State.construct m) 0x0000#16 = .error (.backingOutOfRange 0x0000#16 0) :=
    (Accessors.readByte_romFixed _ _ (by decide)).trans (Accessors.readCart_outside _ _ _ le_rfl)
  exact Accessors.step_of_opcode_fault _ _ rfl hread

/-- Settles O56: the opcode fetch reads an empty `CART`, and its fault is that of the step. -/
theorem stepWithoutCartridgeFaults : Obligations.StepWithoutCartridgeFaults :=
  ⟨step_construct [], step_construct⟩

end Sys2Proof.Proofs.Reset
end
